-- ==== Sys2Proof/Word.lean ====
section
/-! DEFINITION. The word types of the core (00_scope.md R6, R8). Every value is unsigned (R9). -/

namespace Sys2Proof

/-- One byte: a general register, a timer, a memory cell (R6). -/
abbrev Byte := BitVec 8

/-- Sixteen bits: I, PC, a stack entry, an instruction word (R6, R70). -/
abbrev Word := BitVec 16

/-- The number of a general register, V0 to VF, or of a key, 0 to F (R21, R29). -/
abbrev Reg := Fin 16

/-- VF, the register that also holds the flags (R22). -/
abbrev vf : Reg := 15

end Sys2Proof
end

