-- ==== Sys2Proof/Syntax.lean ====
section
/-! DEFINITION. The instructions: one constructor for each row of spec/opcode_table.json, named as
30_encoding.md R75 names the operations, with the operand fields of R71 and R73. -/

namespace Sys2Proof

/-- The 33 operations. `x` and `y` are register numbers, `nn` and `nnn` immediates, `n` a row count.
`shr` and `shl` keep the y field of their word although they ignore it (R111), so that no bit of a
word is dropped by decoding. -/
inductive Instr where
  /-- `00E0` -/
  | cls
  /-- `00EE` -/
  | ret
  /-- `1nnn` -/
  | jp (nnn : BitVec 12)
  /-- `2nnn` -/
  | call (nnn : BitVec 12)
  /-- `3xnn` -/
  | seImm (x : Reg) (nn : Byte)
  /-- `4xnn` -/
  | sneImm (x : Reg) (nn : Byte)
  /-- `5xy0` -/
  | seReg (x y : Reg)
  /-- `6xnn` -/
  | ldImm (x : Reg) (nn : Byte)
  /-- `7xnn` -/
  | addImm (x : Reg) (nn : Byte)
  /-- `8xy0` -/
  | ldReg (x y : Reg)
  /-- `8xy1` -/
  | or (x y : Reg)
  /-- `8xy2` -/
  | and (x y : Reg)
  /-- `8xy3` -/
  | xor (x y : Reg)
  /-- `8xy4` -/
  | addReg (x y : Reg)
  /-- `8xy5` -/
  | sub (x y : Reg)
  /-- `8xy6` -/
  | shr (x y : Reg)
  /-- `8xy7` -/
  | subn (x y : Reg)
  /-- `8xyE` -/
  | shl (x y : Reg)
  /-- `9xy0` -/
  | sneReg (x y : Reg)
  /-- `Annn` -/
  | ldI (nnn : BitVec 12)
  /-- `Cxnn` -/
  | rnd (x : Reg) (nn : Byte)
  /-- `Dxyn` -/
  | drw (x y : Reg) (n : BitVec 4)
  /-- `Ex9E` -/
  | skp (x : Reg)
  /-- `ExA1` -/
  | sknp (x : Reg)
  /-- `Fx07` -/
  | ldVDt (x : Reg)
  /-- `Fx0A` -/
  | ldVK (x : Reg)
  /-- `Fx15` -/
  | ldDtV (x : Reg)
  /-- `Fx18` -/
  | ldStV (x : Reg)
  /-- `Fx1E` -/
  | addI (x : Reg)
  /-- `Fx29` -/
  | ldF (x : Reg)
  /-- `Fx33` -/
  | bcd (x : Reg)
  /-- `Fx55` -/
  | store (x : Reg)
  /-- `Fx65` -/
  | load (x : Reg)
  deriving DecidableEq, Repr

end Sys2Proof
end

