-- ==== Sys2Proof/Config.lean ====
section
/-! DEFINITION. What an implementation fixes (the parameters of 00_scope.md R7, with their
defaults) and the one free value of the model, the random byte of `Cxnn`. -/

namespace Sys2Proof

/-- FX0A_MODE (R7, R78): whether `Fx0A` is an invalid word or waits for a key. -/
inductive Fx0aMode where
  | fault
  | wait
  deriving DecidableEq, Repr

/-- VF_ALIAS_MODE (R7, R101): the order of the flag write and the result write. -/
inductive VfOrder where
  | docSequential
  | latchedFlagLast
  deriving DecidableEq, Repr

/-- ROUND (R7, R251): how an exact half is rounded when the batch size is computed. -/
inductive Rounding where
  | halfAwayFromZero
  | halfEven
  deriving DecidableEq, Repr

/-- The parameters of R7. IPS is the exact fraction `ipsNum / ipsDen`.
DESIGN CHOICE (log 1, log 22): they are held in the state, so that a statement about every state is
one about every configuration; IPS is rational. Safe. -/
structure Params where
  ipsNum     : Nat
  ipsDen     : Nat
  round      : Rounding
  fontBase   : BitVec 12
  fontGlyphs : Vector Byte 80
  ldstIncr   : Bool
  vfOrder    : VfOrder
  fx0aMode   : Fx0aMode
  deriving DecidableEq, Repr

namespace Config

/-- The default FONT_GLYPHS, glyph by glyph, top row first (R56).
PRESUMED (log 7): the spec marks the bytes as general knowledge, not the source's. Unsafe. -/
def fontTable : List Byte :=
  [0xF0, 0x90, 0x90, 0x90, 0xF0] ++ [0x20, 0x60, 0x20, 0x20, 0x70] ++
  [0xF0, 0x10, 0xF0, 0x80, 0xF0] ++ [0xF0, 0x10, 0xF0, 0x10, 0xF0] ++
  [0x90, 0x90, 0xF0, 0x10, 0x10] ++ [0xF0, 0x80, 0xF0, 0x10, 0xF0] ++
  [0xF0, 0x80, 0xF0, 0x90, 0xF0] ++ [0xF0, 0x10, 0x20, 0x40, 0x40] ++
  [0xF0, 0x90, 0xF0, 0x90, 0xF0] ++ [0xF0, 0x90, 0xF0, 0x10, 0xF0] ++
  [0xF0, 0x90, 0xF0, 0x90, 0x90] ++ [0xE0, 0x90, 0xE0, 0x90, 0xE0] ++
  [0xF0, 0x80, 0x80, 0x80, 0xF0] ++ [0xE0, 0x90, 0x90, 0x90, 0xE0] ++
  [0xF0, 0x80, 0xF0, 0x80, 0xF0] ++ [0xF0, 0x80, 0xF0, 0x80, 0x80]

/-- The spec's configuration of the hardware: every parameter at its default (R7). -/
def defaults : Params where
  ipsNum     := 600
  ipsDen     := 1
  round      := .halfAwayFromZero
  fontBase   := 0x000
  fontGlyphs := ⟨⟨fontTable⟩, rfl⟩
  ldstIncr   := false
  vfOrder    := .docSequential
  fx0aMode   := .fault

/-- The random source: the byte the n-th `Cxnn` draws (R120, R235). A free value: it has no body, so
no proof can learn anything about it (log 4). Safe. -/
opaque draw : Nat → Byte

end Config

end Sys2Proof
end

