-- ==== Sys2Proof/WellFormed.lean ====
section
/-! DEFINITION. The checks on instructions and parameters. Register numbers and immediates are bounded
by their types (R21, R71), so what is left to check is what the configuration admits. -/

namespace Sys2Proof

/-- Whether the instruction exists under this FX0A_MODE: `Fx0A` is supported in `wait` mode only
(30_encoding.md R76, R78). -/
def Instr.wellFormed (m : Fx0aMode) : Instr → Bool
  | .ldVK _ => m == .wait
  | .cls | .ret | .jp _ | .call _ | .seImm _ _ | .sneImm _ _ | .seReg _ _ | .ldImm _ _
  | .addImm _ _ | .ldReg _ _ | .or _ _ | .and _ _ | .xor _ _ | .addReg _ _ | .sub _ _ | .shr _ _
  | .subn _ _ | .shl _ _ | .sneReg _ _ | .ldI _ | .rnd _ _ | .drw _ _ _ | .skp _ | .sknp _
  | .ldVDt _ | .ldDtV _ | .ldStV _ | .addI _ | .ldF _ | .bcd _ | .store _ | .load _ => true

/-- The legal parameters of R7: the font lies wholly below 0x200 and IPS is a positive number. -/
def Params.wellFormed (p : Params) : Bool :=
  decide (p.fontBase.toNat + 80 ≤ 0x200) && decide (0 < p.ipsNum) && decide (0 < p.ipsDen)

end Sys2Proof
end

