-- ==== Sys2Proof/Decode.lean ====
section
/-! DEFINITION. Decoding (30_encoding.md R70-R78), total on every word and on any bytes, rejecting by
name; and the encoder, written from the same encodings. -/

namespace Sys2Proof

/-! ### The fields of an instruction word (R71) -/

/-- `family` = w[15:12]. -/
def family (w : Word) : BitVec 4 := w.extractLsb' 12 4

/-- `x` = w[11:8]. -/
def fieldX (w : Word) : Reg := (w.extractLsb' 8 4).toFin

/-- `y` = w[7:4]. -/
def fieldY (w : Word) : Reg := (w.extractLsb' 4 4).toFin

/-- `n` = w[3:0]. -/
def fieldN (w : Word) : BitVec 4 := w.extractLsb' 0 4

/-- `nn` = w[7:0]. -/
def fieldNN (w : Word) : Byte := w.extractLsb' 0 8

/-- `nnn` = w[11:0]. -/
def fieldNNN (w : Word) : BitVec 12 := w.extractLsb' 0 12

/-! ### Decode (R75) -/

/-- Why a word (or a piece of memory) is no instruction: the sets of R76, by name. -/
inductive Reject where
  /-- 0x0000..0x0FFF but 00E0 and 00EE. -/
  | machineCall0
  /-- 5xyN with N not 0. -/
  | nibble5
  /-- 8xyN with N in 8, 9, A, B, C, D, F. -/
  | nibble8
  /-- 9xyN with N not 0. -/
  | nibble9
  /-- Every Bnnn. -/
  | familyB
  /-- ExNN with NN neither 9E nor A1. -/
  | byteE
  /-- FxNN with NN outside the listed ones. -/
  | byteF
  /-- Fx0A under FX0A_MODE = fault (R78). -/
  | keyWaitUnsupported
  /-- Fewer than two bytes were given: no instruction word. -/
  | truncated
  deriving DecidableEq, Repr

/-- Family 0: exactly 00E0 and 00EE. -/
def decode0 (w : Word) : Except Reject Instr :=
  if w = 0x00E0 then .ok .cls
  else if w = 0x00EE then .ok .ret
  else .error .machineCall0

/-- Family 8: the subfamily is n. -/
def decode8 (x y : Reg) (n : BitVec 4) : Except Reject Instr :=
  if n = 0x0 then .ok (.ldReg x y)
  else if n = 0x1 then .ok (.or x y)
  else if n = 0x2 then .ok (.and x y)
  else if n = 0x3 then .ok (.xor x y)
  else if n = 0x4 then .ok (.addReg x y)
  else if n = 0x5 then .ok (.sub x y)
  else if n = 0x6 then .ok (.shr x y)
  else if n = 0x7 then .ok (.subn x y)
  else if n = 0xE then .ok (.shl x y)
  else .error .nibble8

/-- Family E: the subfamily is nn. -/
def decodeE (x : Reg) (nn : Byte) : Except Reject Instr :=
  if nn = 0x9E then .ok (.skp x)
  else if nn = 0xA1 then .ok (.sknp x)
  else .error .byteE

/-- Family F: the subfamily is nn; `Fx0A` exists in `wait` mode only. -/
def decodeF (m : Fx0aMode) (x : Reg) (nn : Byte) : Except Reject Instr :=
  if nn = 0x07 then .ok (.ldVDt x)
  else if nn = 0x0A then
    match m with
    | .wait => .ok (.ldVK x)
    | .fault => .error .keyWaitUnsupported
  else if nn = 0x15 then .ok (.ldDtV x)
  else if nn = 0x18 then .ok (.ldStV x)
  else if nn = 0x1E then .ok (.addI x)
  else if nn = 0x29 then .ok (.ldF x)
  else if nn = 0x33 then .ok (.bcd x)
  else if nn = 0x55 then .ok (.store x)
  else if nn = 0x65 then .ok (.load x)
  else .error .byteF

/-- Decode of R75: a pure function of the word and of FX0A_MODE. Strict (log 15). -/
def decode (m : Fx0aMode) (w : Word) : Except Reject Instr :=
  if family w = 0x0 then decode0 w
  else if family w = 0x1 then .ok (.jp (fieldNNN w))
  else if family w = 0x2 then .ok (.call (fieldNNN w))
  else if family w = 0x3 then .ok (.seImm (fieldX w) (fieldNN w))
  else if family w = 0x4 then .ok (.sneImm (fieldX w) (fieldNN w))
  else if family w = 0x5 then
    if fieldN w = 0x0 then .ok (.seReg (fieldX w) (fieldY w)) else .error .nibble5
  else if family w = 0x6 then .ok (.ldImm (fieldX w) (fieldNN w))
  else if family w = 0x7 then .ok (.addImm (fieldX w) (fieldNN w))
  else if family w = 0x8 then decode8 (fieldX w) (fieldY w) (fieldN w)
  else if family w = 0x9 then
    if fieldN w = 0x0 then .ok (.sneReg (fieldX w) (fieldY w)) else .error .nibble9
  else if family w = 0xA then .ok (.ldI (fieldNNN w))
  else if family w = 0xB then .error .familyB
  else if family w = 0xC then .ok (.rnd (fieldX w) (fieldNN w))
  else if family w = 0xD then .ok (.drw (fieldX w) (fieldY w) (fieldN w))
  else if family w = 0xE then decodeE (fieldX w) (fieldNN w)
  else decodeF m (fieldX w) (fieldNN w)

/-- A word from its two bytes: the byte at the lower address gives bits 15..8 (R52). -/
def wordOfBytes (hi lo : Byte) : Word := hi ++ lo

/-- The byte of a word stored at the lower address: bits 15..8 (R52). -/
def highByte (w : Word) : Byte := w.extractLsb' 8 8

/-- The byte of a word stored at the higher address: bits 7..0 (R52). -/
def lowByte (w : Word) : Byte := w.extractLsb' 0 8

/-- Decode the instruction that starts a sequence of bytes; the rest of the bytes come back. -/
def decodeBytes (m : Fx0aMode) : List Byte → Except Reject (Instr × List Byte)
  | hi :: lo :: rest =>
    match decode m (wordOfBytes hi lo) with
    | .ok i => .ok (i, rest)
    | .error e => .error e
  | [_] => .error .truncated
  | [] => .error .truncated

/-! ### The encoder -/

/-- The word {f, nnn}: format NNN. -/
def packNNN (f : BitVec 4) (nnn : BitVec 12) : Word := f ++ nnn

/-- The word {f, x, nn}: formats XNN and X. -/
def packXNN (f : BitVec 4) (x : Reg) (nn : Byte) : Word := f ++ (BitVec.ofFin x : BitVec 4) ++ nn

/-- The word {f, x, y, n}: formats XY and XYN. -/
def packXYN (f : BitVec 4) (x y : Reg) (n : BitVec 4) : Word :=
  f ++ (BitVec.ofFin x : BitVec 4) ++ (BitVec.ofFin y : BitVec 4) ++ n

/-- The word of an instruction (the encodings of the rules in files 40 to 44). -/
def encode : Instr → Word
  | .cls => 0x00E0
  | .ret => 0x00EE
  | .jp nnn => packNNN 0x1 nnn
  | .call nnn => packNNN 0x2 nnn
  | .seImm x nn => packXNN 0x3 x nn
  | .sneImm x nn => packXNN 0x4 x nn
  | .seReg x y => packXYN 0x5 x y 0x0
  | .ldImm x nn => packXNN 0x6 x nn
  | .addImm x nn => packXNN 0x7 x nn
  | .ldReg x y => packXYN 0x8 x y 0x0
  | .or x y => packXYN 0x8 x y 0x1
  | .and x y => packXYN 0x8 x y 0x2
  | .xor x y => packXYN 0x8 x y 0x3
  | .addReg x y => packXYN 0x8 x y 0x4
  | .sub x y => packXYN 0x8 x y 0x5
  | .shr x y => packXYN 0x8 x y 0x6
  | .subn x y => packXYN 0x8 x y 0x7
  | .shl x y => packXYN 0x8 x y 0xE
  | .sneReg x y => packXYN 0x9 x y 0x0
  | .ldI nnn => packNNN 0xA nnn
  | .rnd x nn => packXNN 0xC x nn
  | .drw x y n => packXYN 0xD x y n
  | .skp x => packXNN 0xE x 0x9E
  | .sknp x => packXNN 0xE x 0xA1
  | .ldVDt x => packXNN 0xF x 0x07
  | .ldVK x => packXNN 0xF x 0x0A
  | .ldDtV x => packXNN 0xF x 0x15
  | .ldStV x => packXNN 0xF x 0x18
  | .addI x => packXNN 0xF x 0x1E
  | .ldF x => packXNN 0xF x 0x29
  | .bcd x => packXNN 0xF x 0x33
  | .store x => packXNN 0xF x 0x55
  | .load x => packXNN 0xF x 0x65

/-! ### The opcode table's numbering -/

/-- The word whose low `nbits` bits are w's and whose other bits are 0. -/
def tableWord (nbits w : Nat) : Word := BitVec.ofNat 16 (w % 2 ^ nbits)

/-- The instruction the decoder reads from a row's word, laid out big-endian as the core fetches it.
Every row of the table is asked for, so FX0A_MODE is `wait`, under which all 33 exist (R75, log 11). -/
def decodeTableWord (nbits w : Nat) : Option Instr :=
  match decodeBytes .wait [highByte (tableWord nbits w), lowByte (tableWord nbits w)] with
  | .ok (i, _) => some i
  | .error _ => none

end Sys2Proof
end

