-- ==== Sys2Proof/Machine/State.lean ====
section
/-! DEFINITION. The state of the core (10_state.md R20), as plain data, with the model's own fields for
the parameters (R7) and for the inputs that R34 names; the reasons a step can stop; reset. -/

namespace Sys2Proof.Machine

/-- Memory as a list of (address, byte), addresses strictly rising, no entry equal to what an unlisted
address reads as (log 6). -/
abbrev Memory := List Host.Cell

/-- The frame buffer, 32 rows of 64 one-bit cells, row 0 at the top; bit x of row y is cell FB[x][y]
(R30, R230, D23; log 25). -/
abbrev FrameBuffer := Vector (BitVec 64) 32

/-- Every cell 0 (R150). -/
def FrameBuffer.clear : FrameBuffer := Vector.replicate 32 0

/-- The fault kinds of 60_exceptions.md R200. -/
inductive FaultKind where
  | invalidInstruction
  | stackOverflow
  | stackUnderflow
  | memoryFault
  | keyIndexFault
  deriving DecidableEq, Repr

/-- What the fault latch records (10_state.md R32; 60_exceptions.md R204). -/
structure FaultRecord where
  kind : FaultKind
  word : Word
  pc   : Word
  addr : Word
  deriving DecidableEq, Repr

/-- One strobe of the host on the core's input ports (92_eei_decisions.md D1). -/
inductive Strobe where
  /-- EXEC: one instruction (R80). -/
  | exec
  /-- TICK: one timer tick (R220). -/
  | tick
  /-- KEY_DOWN(id), id 0 to 15 (R232). -/
  | keyDown (id : Reg)
  /-- KEY_UP(id), id 0 to 15 (R232). -/
  | keyUp (id : Reg)
  /-- REDRAW_ACK (R233). -/
  | redrawAck
  /-- LOAD(image) (R243). -/
  | load (image : List Byte)
  /-- RESET (R240). -/
  | reset
  deriving DecidableEq, Repr

/-- Why a step stops with a fault. -/
inductive Fault where
  /-- The core is halted: an EXEC found FAULT set, changed nothing and reports the latched record
  (R80, R205). Raised by `step` alone, never by an instruction: an instruction's own fault is a next
  state in which FAULT is latched. Safe: the spec's core executes nothing here either (log 3). -/
  | halted (r : FaultRecord)
  deriving DecidableEq, Repr

/-- Why a step is refused. -/
inductive Refusal where
  /-- No meaning yet for the instruction, by its mnemonic. Raised by `exec` alone. Safe. -/
  | notModelled (mnemonic : String)
  /-- A LOAD strobe at a time other than after reset, before the first exec, once: outside the host's
  contract, and R243 says that a model refuses it (log 23). Raised by `step`. Safe. -/
  | loadOutsideContract
  deriving DecidableEq, Repr

/-- The state: R20's aggregate, then the model's own fields (`cfg`, `drawIndex`, `strobes`). -/
structure State where
  /-- `Mem[0..4095]` (R50). -/
  mem       : Memory
  /-- `V[0..15]` (R21). -/
  v         : Vector Byte 16
  /-- `I` (R24). -/
  i         : Word
  /-- `PC` (R25). -/
  pc        : Word
  /-- `SP`, 0 to 16 (R26; log 27). -/
  sp        : Fin 17
  /-- `Stack[0..15]` (R26). -/
  stack     : Vector Word 16
  /-- `DT` (R27). -/
  dt        : Byte
  /-- `ST` (R28). -/
  st        : Byte
  /-- `Key[0..15]`, true while held (R29). -/
  keys      : Vector Bool 16
  /-- `FB[0..63][0..31]` (R30). -/
  fb        : FrameBuffer
  /-- `REDRAW` (R31). -/
  redraw    : Bool
  /-- `FAULT` (R32). -/
  fault     : Option FaultRecord
  /-- `TONE` (R33). -/
  tone      : Bool
  /-- `Loaded` (R242). -/
  loaded    : Bool
  /-- The parameters of R7 (log 1). -/
  cfg       : Params
  /-- How many random bytes have been taken (log 4). -/
  drawIndex : Nat
  /-- The host's pending strobes, oldest first; none pending means the host strobes EXEC (log 2). -/
  strobes   : List Strobe
  deriving DecidableEq, Repr

/-- The outcome of an instruction or of a step. -/
abbrev Result := Host.Outcome State Fault Refusal

/-- The state right after reset, for a core with parameters `p` (R240). Memory lists nothing: an
unlisted address reads as its reset contents (log 6). The values of SP, the stack, the timers, the
keys, the frame buffer, REDRAW, FAULT, TONE and Loaded are the spec's own decision (D18, D25, D36;
log 5); those of the model's own fields are a DESIGN CHOICE (log 33). -/
def State.resetWith (p : Params) : State where
  mem       := []
  v         := Vector.replicate 16 0x00
  i         := 0x0000
  pc        := 0x0200
  sp        := 0
  stack     := Vector.replicate 16 0x0000
  dt        := 0x00
  st        := 0x00
  keys      := Vector.replicate 16 false
  fb        := FrameBuffer.clear
  redraw    := false
  fault     := none
  tone      := false
  loaded    := false
  cfg       := p
  drawIndex := 0
  strobes   := []

/-- The state right after reset of the spec's configuration (R7, R240). -/
def State.reset : State := State.resetWith Config.defaults

end Sys2Proof.Machine
end

