-- ==== Sys2Proof/Machine/Ops.lean ====
section
/-! DEFINITION. The named operations on memory, registers, PC, the frame buffer and the fault latch
that every meaning is written over. -/

namespace Sys2Proof.Machine

/-! ### Memory (20_memory.md) -/

/-- What an unlisted address reads as: its reset contents, the font at FONT_BASE and 0x00 elsewhere
(R55, R56, R240; log 6). -/
def resetByte (p : Params) (a : Nat) : Byte :=
  if h : p.fontBase.toNat ≤ a ∧ a < p.fontBase.toNat + 80 then
    p.fontGlyphs[a - p.fontBase.toNat]'(by omega)
  else 0x00

/-- The listed byte of an address, if there is one. -/
def Memory.lookup : Memory → Nat → Option Byte
  | [], _ => none
  | (k, b) :: m, a => if a = k then some b else Memory.lookup m a

/-- List, replace or (with `none`) remove the entry of an address, keeping addresses rising. -/
def Memory.put : Memory → Nat → Option Byte → Memory
  | [], a, some b => [(a, b)]
  | [], _, none => []
  | (k, c) :: m, a, o =>
    if a < k then
      match o with
      | some b => (a, b) :: (k, c) :: m
      | none => (k, c) :: m
    else if a = k then
      match o with
      | some b => (k, b) :: m
      | none => m
    else (k, c) :: Memory.put m a o

/-- Whether the addresses of a list rise strictly, all of them at least `lo`. -/
def Memory.rising : Nat → Memory → Bool
  | _, [] => true
  | lo, (k, _) :: m => decide (lo ≤ k) && Memory.rising (k + 1) m

/-- The canonical form: addresses strictly rising and inside [0, 4095] (R51), no entry equal to what
the address reads as when it is not listed (log 6). -/
def Memory.wf (p : Params) (m : Memory) : Bool :=
  Memory.rising 0 m && m.all fun c => decide (c.1 < 4096) && decide (c.2 ≠ resetByte p c.1)

/-- MemRead(a, 1) (R11). -/
def State.readByte (s : State) (a : Nat) : Byte := (Memory.lookup s.mem a).getD (resetByte s.cfg a)

/-- MemWrite(a, 1, b) (R11). -/
def State.writeByte (s : State) (a : Nat) (b : Byte) : State :=
  { s with mem := Memory.put s.mem a (if b = resetByte s.cfg a then none else some b) }

/-- Store bytes at ascending addresses from `a` (R58, R60). -/
def State.storeBytes (s : State) (a : Nat) : List Byte → State
  | [] => s
  | b :: bs => (s.writeByte a b).storeBytes (a + 1) bs

/-- The `n` bytes at ascending addresses from `a` (R58, R60). -/
def State.loadBytes (s : State) (a n : Nat) : List Byte :=
  (List.range n).map fun k => s.readByte (a + k)

/-- CheckAddr of R51: the address itself when it is outside [0, 4095], as the fault's address. -/
def checkAddr (a : Nat) : Option Nat := if 0xFFF < a then some a else none

/-- CheckAddr of `base`, `base + 1`, …, `n` addresses in all, exact sums (D10, log 14): the lowest
failing address (R59). -/
def checkRange (base n : Nat) : Option Nat :=
  (List.range n).findSome? fun k => checkAddr (base + k)

/-! ### Registers, PC -/

/-- `V[x]` (R10). -/
def State.getV (s : State) (x : Reg) : Byte := s.v[x.val]

/-- `V[x] <- b` (R10). -/
def State.setV (s : State) (x : Reg) (b : Byte) : State := { s with v := s.v.set x.val b }

/-- `PC <- a`. -/
def State.setPc (s : State) (a : Word) : State := { s with pc := a }

/-- `PC <- mod_16(PC + 2)`, the default advance (R81; log 13). -/
def State.advance (s : State) : State := s.setPc (s.pc + 2)

/-- `PC <- mod_16(PC + 4)`: pass over the next word (R81; log 13). -/
def State.skip (s : State) : State := s.setPc (s.pc + 4)

/-- A conditional skip: PC + 4 when the condition holds, PC + 2 otherwise (R81). -/
def State.skipIf (s : State) (c : Bool) : State := if c then s.skip else s.advance

/-! ### The fault latch (60_exceptions.md R200-R207) -/

/-- The code of a fault kind on the FAULT status port (R201, D9; log 34). -/
def FaultKind.code : FaultKind → Nat
  | .invalidInstruction => 1
  | .stackOverflow => 2
  | .stackUnderflow => 3
  | .memoryFault => 4
  | .keyIndexFault => 5

/-- TAKING A FAULT, `raise F(info)` of R204: only the latch is written, and only when it is empty
(R32; log 17). PC still addresses the faulting instruction (R203; log 16). `a` is the offending
address, 0 for every kind but a MemoryFault; the latch holds 16 bits of it (R204; log 35). There is
no return from a fault (R207); reset alone clears the latch. -/
def State.raise (s : State) (k : FaultKind) (w : Word) (a : Nat) : State :=
  { s with fault := some (s.fault.getD ⟨k, w, s.pc, BitVec.ofNat 16 a⟩) }

/-! ### Instruction fetch (20_memory.md R52-R54) -/

/-- Fetch() of R53: the big-endian word at PC, or the lowest failing address of PC, PC + 1. -/
def State.fetch (s : State) : Except Nat Word :=
  match checkRange s.pc.toNat 2 with
  | some a => .error a
  | none => .ok (wordOfBytes (s.readByte s.pc.toNat) (s.readByte (s.pc.toNat + 1)))

/-- Store an instruction word at address `a`, big-endian (R52). -/
def State.storeWord (s : State) (a : Nat) (w : Word) : State :=
  s.storeBytes a [highByte w, lowByte w]

/-! ### The call stack (R26) -/

/-- `Stack[SP] <- a; SP <- SP + 1`; none when SP = 16. -/
def State.push (s : State) (a : Word) : Option State :=
  if h : s.sp.val < 16 then
    some { s with stack := s.stack.set s.sp.val a, sp := ⟨s.sp.val + 1, by omega⟩ }
  else none

/-- `SP <- SP - 1` and the entry it then addresses, which keeps its value (D35); none when SP = 0. -/
def State.pop (s : State) : Option (Word × State) :=
  if h : 0 < s.sp.val then
    some (s.stack[s.sp.val - 1]'(by omega), { s with sp := ⟨s.sp.val - 1, by omega⟩ })
  else none

/-! ### The frame buffer (R30, R151, R152) -/

/-- Cell FB[x][y] (x below 64, y below 32). -/
def FrameBuffer.cell (fb : FrameBuffer) (x y : Nat) : Bool := (fb[y]?.getD 0).getLsbD x

/-- FB[x][y] <- FB[x][y] ^ 1. -/
def FrameBuffer.toggle (fb : FrameBuffer) (x y : Nat) : FrameBuffer :=
  if h : y < 32 then fb.set y (fb[y] ^^^ BitVec.twoPow 64 x) else fb

/-- One bit of a sprite row, `b` columns right of the row's left end: a set bit reports a collision if
its cell is 1 and toggles the cell; a clear bit does nothing (R151, R152). -/
def drawBit (ox oy r : Nat) (row : Byte) (acc : FrameBuffer × Bool) (b : Nat) : FrameBuffer × Bool :=
  if row.getLsbD (7 - b) then
    let cx := (ox + b) % 64
    let cy := (oy + r) % 32
    (acc.1.toggle cx cy, acc.2 || acc.1.cell cx cy)
  else acc

/-- The eight bits of sprite row `r`, leftmost first. -/
def drawRow (ox oy r : Nat) (row : Byte) (acc : FrameBuffer × Bool) : FrameBuffer × Bool :=
  (List.range 8).foldl (drawBit ox oy r row) acc

/-- The rows of a sprite from row `r` on, top first. -/
def drawRows (ox oy : Nat) : Nat → List Byte → FrameBuffer × Bool → FrameBuffer × Bool
  | _, [], acc => acc
  | r, row :: rows, acc => drawRows ox oy (r + 1) rows (drawRow ox oy r row acc)

end Sys2Proof.Machine
end

