-- ==== Sys2Proof/Machine/Flags.lean ====
section
/-! DEFINITION. Every flag computation of the core and the two orders in which flag and result are
written (40_alu.md R100, R101, R108-R114). -/

namespace Sys2Proof.Machine

/-- A flag value: 0x01 or 0x00 (R109). -/
def flagByte (c : Bool) : Byte := if c then 0x01 else 0x00

/-- Carry of a sum: the exact sum exceeds 255 (R100, R108). -/
def carryFlag (a b : Byte) : Byte := flagByte (decide (255 < a.toNat + b.toNat))

/-- No borrow of a difference: minuend at least subtrahend, so equal operands give 1 (R100, R110). -/
def noBorrowFlag (minuend subtrahend : Byte) : Byte :=
  flagByte (decide (subtrahend.toNat ≤ minuend.toNat))

/-- The bit a right shift moves out (R112). -/
def lowBitFlag (a : Byte) : Byte := a &&& 0x01

/-- The bit a left shift moves out (R114). -/
def highBitFlag (a : Byte) : Byte := (a >>> 7) &&& 0x01

/-- Write a flag to VF and a result to Vx in the order of VF_ALIAS_MODE (R101; log 10). Under
`docSequential` the flag comes first and the result is computed from the registers as the flag write
left them; under `latchedFlagLast` it is computed from the registers as they were, and the flag comes
last. -/
def State.writeFlagged (s : State) (x : Reg) (flag : Byte) (result : State → Byte) : State :=
  match s.cfg.vfOrder with
  | .docSequential => (s.setV vf flag).setV x (result (s.setV vf flag))
  | .latchedFlagLast => (s.setV x (result s)).setV vf flag

end Sys2Proof.Machine
end

