-- ==== Sys2Proof/Machine/Operands.lean ====
section
/-! DEFINITION. The operand forms: immediates, the index register as an address, key ids, decimal
digits, glyph addresses, and the register transfers (30_encoding.md R72; 43_index_memory.md). -/

namespace Sys2Proof.Machine

/-- zext_16(nnn): a 12-bit address or constant as a 16-bit value (R72). -/
def zext16 (nnn : BitVec 12) : Word := nnn.setWidth 16

/-- The address in I, an exact number (R51, D10; log 14). -/
def State.indexAddr (s : State) : Nat := s.i.toNat

/-- The key that a register value names; none above 15 (R137, R138, D15; log 18). -/
def keyId (b : Byte) : Option Reg := if h : b.toNat < 16 then some ⟨b.toNat, h⟩ else none

/-- Key[k] = 1 (R29). -/
def State.keyHeld (s : State) (k : Reg) : Bool := s.keys[k.val]

/-- The lowest-numbered held key (R181). -/
def State.lowestKey (s : State) : Option Nat :=
  (List.range 16).find? fun k => s.keys[k]?.getD false

/-- Hundreds, tens and units of a byte (R163). -/
def decimalDigits (b : Byte) : List Byte :=
  [BitVec.ofNat 8 (b.toNat / 100), BitVec.ofNat 8 (b.toNat / 10 % 10), BitVec.ofNat 8 (b.toNat % 10)]

/-- mod_16(FONT_BASE + v * 5): the glyph address of the whole byte v (R162). -/
def glyphAddr (p : Params) (b : Byte) : Word := BitVec.ofNat 16 (p.fontBase.toNat + b.toNat * 5)

/-- V0..Vx, in order (R164). -/
def State.regsUpTo (s : State) (x : Reg) : List Byte := s.v.toList.take (x.val + 1)

/-- V[k] <- Mem[base + k] for k in 0..n-1 (R165). -/
def State.loadRegs (s : State) (base : Nat) : Nat → State
  | 0 => s
  | k + 1 =>
    if h : k < 16 then (s.loadRegs base k).setV ⟨k, h⟩ (s.readByte (base + k)) else s.loadRegs base k

/-- After a register transfer: `I <- mod_16(I + x + 1)` if LDST_I_INCREMENT (R166; log 9). -/
def State.bumpIndex (s : State) (x : Reg) : State :=
  if s.cfg.ldstIncr then { s with i := s.i + BitVec.ofNat 16 (x.val + 1) } else s

end Sys2Proof.Machine
end

