-- ==== Sys2Proof/Machine/Alu.lean ====
section
/-! DEFINITION. The register and ALU instructions (40_alu.md). -/

namespace Sys2Proof.Machine

/-- `6xnn` (R102). -/
def execLdImm (x : Reg) (nn : Byte) (s : State) : Result := .next (s.setV x nn).advance

/-- `7xnn`: no flag, VF included (R103). -/
def execAddImm (x : Reg) (nn : Byte) (s : State) : Result := .next (s.setV x (s.getV x + nn)).advance

/-- `8xy0` (R104). -/
def execLdReg (x y : Reg) (s : State) : Result := .next (s.setV x (s.getV y)).advance

/-- `8xy1` (R105). -/
def execOr (x y : Reg) (s : State) : Result := .next (s.setV x (s.getV x ||| s.getV y)).advance

/-- `8xy2` (R106). -/
def execAnd (x y : Reg) (s : State) : Result := .next (s.setV x (s.getV x &&& s.getV y)).advance

/-- `8xy3` (R107). -/
def execXor (x y : Reg) (s : State) : Result := .next (s.setV x (s.getV x ^^^ s.getV y)).advance

/-- `8xy4`: the result first, then the carry of the same exact sum, in both modes (R108). -/
def execAddReg (x y : Reg) (s : State) : Result :=
  .next ((s.setV x (s.getV x + s.getV y)).setV vf (carryFlag (s.getV x) (s.getV y))).advance

/-- `8xy5` (R110). -/
def execSub (x y : Reg) (s : State) : Result :=
  .next (s.writeFlagged x (noBorrowFlag (s.getV x) (s.getV y))
    fun t => t.getV x - t.getV y).advance

/-- `8xy6`: Vx in place, y ignored (R111, R112). -/
def execShr (x _y : Reg) (s : State) : Result :=
  .next (s.writeFlagged x (lowBitFlag (s.getV x)) fun t => t.getV x >>> 1).advance

/-- `8xy7` (R113). -/
def execSubn (x y : Reg) (s : State) : Result :=
  .next (s.writeFlagged x (noBorrowFlag (s.getV y) (s.getV x))
    fun t => t.getV y - t.getV x).advance

/-- `8xyE`: Vx in place, y ignored (R111, R114). -/
def execShl (x _y : Reg) (s : State) : Result :=
  .next (s.writeFlagged x (highBitFlag (s.getV x)) fun t => t.getV x <<< 1).advance

/-- `Cxnn`: the next byte of the random source, masked (R120, R235; log 4). -/
def execRnd (x : Reg) (nn : Byte) (s : State) : Result :=
  .next { s.setV x (Config.draw s.drawIndex &&& nn) with drawIndex := s.drawIndex + 1 }.advance

end Sys2Proof.Machine
end

