-- ==== Sys2Proof/Machine/ControlFlow.lean ====
section
/-! DEFINITION. Return, jump, call and the conditional skips (41_control_flow.md). -/

namespace Sys2Proof.Machine

/-- `00EE`: the popped address, no advance (R130). -/
def execRet (s : State) : Result :=
  match s.pop with
  | some (a, t) => .next (t.setPc a)
  | none => .next (s.raise .stackUnderflow (encode .ret) 0)

/-- `1nnn` (R131). -/
def execJp (nnn : BitVec 12) (s : State) : Result := .next (s.setPc (zext16 nnn))

/-- `2nnn`: pushes the address of the word after the call (R132, D2; log 12). -/
def execCall (nnn : BitVec 12) (s : State) : Result :=
  match s.push (s.pc + 2) with
  | some t => .next (t.setPc (zext16 nnn))
  | none => .next (s.raise .stackOverflow (encode (.call nnn)) 0)

/-- `3xnn` (R133). -/
def execSeImm (x : Reg) (nn : Byte) (s : State) : Result := .next (s.skipIf (s.getV x == nn))

/-- `4xnn` (R134). -/
def execSneImm (x : Reg) (nn : Byte) (s : State) : Result := .next (s.skipIf (s.getV x != nn))

/-- `5xy0` (R135). -/
def execSeReg (x y : Reg) (s : State) : Result := .next (s.skipIf (s.getV x == s.getV y))

/-- `9xy0` (R136). -/
def execSneReg (x y : Reg) (s : State) : Result := .next (s.skipIf (s.getV x != s.getV y))

/-- `Ex9E` (R137). -/
def execSkp (x : Reg) (s : State) : Result :=
  match keyId (s.getV x) with
  | some k => .next (s.skipIf (s.keyHeld k))
  | none => .next (s.raise .keyIndexFault (encode (.skp x)) 0)

/-- `ExA1` (R138). -/
def execSknp (x : Reg) (s : State) : Result :=
  match keyId (s.getV x) with
  | some k => .next (s.skipIf (!s.keyHeld k))
  | none => .next (s.raise .keyIndexFault (encode (.sknp x)) 0)

end Sys2Proof.Machine
end

