-- ==== Sys2Proof/Machine/Display.lean ====
section
/-! DEFINITION. The frame-buffer instructions (42_display.md). -/

namespace Sys2Proof.Machine

/-- `00E0`: REDRAW is set whether or not a cell changed (R150, D20; log 20). -/
def execCls (s : State) : Result := .next { s with fb := FrameBuffer.clear, redraw := true }.advance

/-- `Dxyn`: Vx, Vy and I are read and every row address is checked before anything is written; n = 0
draws nothing, clears VF and sets REDRAW (R152, D7, D14, D31; log 16, log 19). -/
def execDrw (x y : Reg) (n : BitVec 4) (s : State) : Result :=
  match checkRange s.indexAddr n.toNat with
  | some a => .next (s.raise .memoryFault (encode (.drw x y n)) a)
  | none =>
    let drawn := drawRows (s.getV x).toNat (s.getV y).toNat 0
      (s.loadBytes s.indexAddr n.toNat) (s.fb, false)
    .next { s.setV vf (flagByte drawn.2) with fb := drawn.1, redraw := true }.advance

end Sys2Proof.Machine
end

