-- ==== Sys2Proof/Machine/IndexMemory.lean ====
section
/-! DEFINITION. The index register and the memory transfers (43_index_memory.md). Every address is
checked before the first write (R59, D7; log 16). -/

namespace Sys2Proof.Machine

/-- `Annn` (R160). -/
def execLdI (nnn : BitVec 12) (s : State) : Result := .next { s with i := zext16 nnn }.advance

/-- `Fx1E`: wraps at 16 bits, no flag, no fault (R161, D11; log 32). -/
def execAddI (x : Reg) (s : State) : Result :=
  .next { s with i := s.i + (s.getV x).setWidth 16 }.advance

/-- `Fx29` (R162). -/
def execLdF (x : Reg) (s : State) : Result :=
  .next { s with i := glyphAddr s.cfg (s.getV x) }.advance

/-- `Fx33` (R163). -/
def execBcd (x : Reg) (s : State) : Result :=
  match checkRange s.indexAddr 3 with
  | some a => .next (s.raise .memoryFault (encode (.bcd x)) a)
  | none => .next (s.storeBytes s.indexAddr (decimalDigits (s.getV x))).advance

/-- `Fx55` (R164, R166). -/
def execStore (x : Reg) (s : State) : Result :=
  match checkRange s.indexAddr (x.val + 1) with
  | some a => .next (s.raise .memoryFault (encode (.store x)) a)
  | none => .next ((s.storeBytes s.indexAddr (s.regsUpTo x)).bumpIndex x).advance

/-- `Fx65` (R165, R166). -/
def execLoad (x : Reg) (s : State) : Result :=
  match checkRange s.indexAddr (x.val + 1) with
  | some a => .next (s.raise .memoryFault (encode (.load x)) a)
  | none => .next ((s.loadRegs s.indexAddr (x.val + 1)).bumpIndex x).advance

end Sys2Proof.Machine
end

