-- ==== Sys2Proof/Machine/TimersKeys.lean ====
section
/-! DEFINITION. The timer and key-wait instructions (44_timers_keys.md). -/

namespace Sys2Proof.Machine

/-- `Fx07` (R180). -/
def execLdVDt (x : Reg) (s : State) : Result := .next (s.setV x s.dt).advance

/-- `Fx0A`. FX0A_MODE = wait: the lowest-numbered held key goes to Vx; with no key held nothing
changes, and the instruction executes again at the next exec (R181). FX0A_MODE = fault: the word is
an invalid instruction (R78), and so is this instruction when it is executed by itself (log 11). -/
def execLdVK (x : Reg) (s : State) : Result :=
  match s.cfg.fx0aMode with
  | .wait =>
    match s.lowestKey with
    | some k => .next (s.setV x (BitVec.ofNat 8 k)).advance
    | none => .next s
  | .fault => .next (s.raise .invalidInstruction (encode (.ldVK x)) 0)

/-- `Fx15` (R182). -/
def execLdDtV (x : Reg) (s : State) : Result := .next { s with dt := s.getV x }.advance

/-- `Fx18`: no tone edge (R183). -/
def execLdStV (x : Reg) (s : State) : Result := .next { s with st := s.getV x }.advance

end Sys2Proof.Machine
end

