-- ==== Sys2Proof/Machine/Strobes.lean ====
section
/-! DEFINITION. The core's ports: what each strobe of the host does, the step call made of them, and
what the host reads (60_exceptions.md R220-R236; 70_reset_and_hazards.md R240-R252; D1). -/

namespace Sys2Proof.Machine

/-- EXEC: one execution of the core, Exec() of R80, with the priority of R206. A halted core changes
nothing and reports the latched fault (R205; log 3). -/
def execStrobe (s : State) : Result :=
  match s.fault with
  | some r => .fault (.halted r)
  | none =>
    match s.fetch with
    | .error a => .next (s.raise .memoryFault 0x0000 a)
    | .ok w =>
      match decode s.cfg.fx0aMode w with
      | .error _ => .next (s.raise .invalidInstruction w 0)
      | .ok i => exec i s

/-- TICK: Tick() of R220 and R221. TONE keeps its value until the next tick (log 26). -/
def tick (s : State) : State :=
  match s.fault with
  | some _ => s
  | none =>
    { s with
      dt := if s.dt = 0 then 0 else s.dt - 1
      st := if s.st = 0 then 0 else s.st - 1
      tone := s.st == 1 }

/-- KEY_DOWN(id) (R232). -/
def keyDown (id : Reg) (s : State) : State := { s with keys := s.keys.set id.val true }

/-- KEY_UP(id) (R232). -/
def keyUp (id : Reg) (s : State) : State := { s with keys := s.keys.set id.val false }

/-- REDRAW_ACK (R233). -/
def redrawAck (s : State) : State := { s with redraw := false }

/-- RESET: Reset() of R240, in any state (D34). The parameters, the random source's position and the
host's own pending strobes are no state of the core and stay (log 30). -/
def resetStrobe (s : State) : State :=
  { State.resetWith s.cfg with drawIndex := s.drawIndex, strobes := s.strobes }

/-- What the load port answers (R243). -/
inductive LoadResult where
  /-- LoadOk and the loaded state. -/
  | loadOk (s : State)
  /-- ProgramTooLarge: no state changes (R202). -/
  | programTooLarge
  /-- Outside the host's contract: refused (D25, U19; log 23). -/
  | outsideContract
  deriving DecidableEq, Repr

/-- LOAD(image): Load() of R243. It is accepted once, after reset and before the first exec: while
nothing has been loaded and FAULT is none. An exec with nothing loaded always latches a fault (R245),
so these two fields say whether one has happened (log 23). -/
def loadPort (image : List Byte) (s : State) : LoadResult :=
  if s.loaded || s.fault.isSome then .outsideContract
  else if 3584 < image.length then .programTooLarge
  else .loadOk { s.storeBytes 0x200 image with loaded := true }

/-- What one strobe does (D1). -/
def strobe (e : Strobe) (s : State) : Result :=
  match e with
  | .exec => execStrobe s
  | .tick => .next (tick s)
  | .keyDown id => .next (keyDown id s)
  | .keyUp id => .next (keyUp id s)
  | .redrawAck => .next (redrawAck s)
  | .reset => .next (resetStrobe s)
  | .load image =>
    match loadPort image s with
    | .loadOk t => .next t
    | .programTooLarge => .next s
    | .outsideContract => .refused .loadOutsideContract

/-! ### The step call (70_reset_and_hazards.md R250-R252) -/

/-- What a step call returns: Ok, or the fault that ended it, with the state it leaves. -/
inductive CallResult where
  | ok (s : State)
  | faulted (r : FaultRecord) (s : State)
  /-- An instruction without a meaning. -/
  | refused (r : Refusal)
  deriving DecidableEq, Repr

/-- N execs, then one tick; a fault ends the call at once and the tick is skipped (R250). -/
def batch : Nat → State → CallResult
  | 0, s => .ok (tick s)
  | n + 1, s =>
    match execStrobe s with
    | .next t =>
      match t.fault with
      | some r => .faulted r t
      | none => batch n t
    | .fault (.halted r) => .faulted r s
    | .refused r => .refused r

/-- StepCall of R250 with the batch size N as its input (R251). No host exchange lies inside it
(R252, U20; log 21). -/
def stepCall (n : Nat) (s : State) : CallResult :=
  match s.fault with
  | some r => .faulted r s
  | none => batch n s

/-- ROUND(num / den) (R251; log 22). -/
def roundQuotient (r : Rounding) (num den : Nat) : Nat :=
  match r with
  | .halfAwayFromZero => (2 * num + den) / (2 * den)
  | .halfEven =>
    if 2 * (num % den) = den then num / den + num / den % 2
    else (2 * num + den) / (2 * den)

/-- N = ROUND(elapsed * IPS) for an elapsed time of `num / den` seconds (R250, R251, D43; log 22). -/
def batchSize (p : Params) (num den : Nat) : Nat :=
  roundQuotient p.round (num * p.ipsNum) (den * p.ipsDen)

/-- StepCall(elapsed) for an elapsed time of `num / den` seconds (R250). -/
def stepCallElapsed (num den : Nat) (s : State) : CallResult := stepCall (batchSize s.cfg num den) s

/-- The strobes a step call of N instructions is made of (D1). -/
def stepCallStrobes (n : Nat) : List Strobe := List.replicate n .exec ++ [.tick]

/-! ### What the host reads: no effect on state (log 31) -/

/-- The frame-buffer output port FB[2047:0], bit 0 first: bit y * 64 + x is cell (x, y) (R230, D23). -/
def frameBufferPort (s : State) : List Bool :=
  (List.range 2048).map fun k => s.fb.cell (k % 64) (k / 64)

/-- The diagnostic port: all 4096 bytes (R234). -/
def memorySnapshot (s : State) : List Byte := s.loadBytes 0 4096

/-- The code on the FAULT status port, 0 for none (R201). -/
def faultCode (s : State) : Nat :=
  match s.fault with
  | none => 0
  | some r => r.kind.code

/-! ### Placing an instruction where the next step fetches it (log 24) -/

/-- `s` made ready to run the word `w` at its very next step: `w` is stored at PC, FAULT is cleared
and no strobe of the host is pending, since a halted core fetches nothing and a pending strobe would
be taken first. A PC from which nothing can be fetched is moved to the reset vector. -/
def State.placeWord (s : State) (w : Word) : State :=
  let s := { s with fault := none, strobes := [] }
  let s := if s.pc.toNat ≤ 0xFFE then s else s.setPc 0x0200
  s.storeWord s.pc.toNat w

end Sys2Proof.Machine
end

