-- ==== Sys2Proof/Machine/Step.lean ====
section
/-! DEFINITION. One step of the machine: the host's oldest pending strobe, or EXEC when none is
pending (log 2). -/

namespace Sys2Proof.Machine

/-- One step. A pending strobe is taken from the list and done; with none pending the core executes
one instruction (R80). -/
def step (s : State) : Host.Outcome State Fault Refusal :=
  match s.strobes with
  | [] => execStrobe s
  | e :: rest => strobe e { s with strobes := rest }

/-- `s` with the instruction word `w` (its low `nbits` bits, numbered as the opcode table numbers
them) stored where `step` fetches its next instruction (log 24). -/
def State.withFetchWord (s : State) (nbits w : Nat) : State := s.placeWord (tableWord nbits w)

end Sys2Proof.Machine
end

