-- ==== Sys2Proof/Safety.lean ====
section
/-! DEFINITION. The words that claims are stated in: what a safe run is, the invariant every step keeps,
and the spec's own tables of encodings, invalid words, fault causes and destinations, each written
from the spec and not from the machine. -/

namespace Sys2Proof.Machine

/-! ### Runs -/

/-- The core is running: FAULT is none (R205). -/
def State.running (s : State) : Bool := s.fault.isNone

/-- A safe run of `n` steps: it answers a next state and no fault is latched at its end. FAULT is
sticky between resets (R205), so without a RESET strobe none was latched on the way (R253). -/
def SafeRun (n : Nat) (s : State) : Prop :=
  ∃ t, Sys2Proof.core.run n s = .next t ∧ t.running = true

/-- `n` execs in a row, stopping at the first that answers no next state. -/
def execRun : Nat → State → Result
  | 0, s => .next s
  | n + 1, s =>
    match execStrobe s with
    | .next t => execRun n t
    | .fault r => .fault r
    | .refused r => .refused r

/-- The meanings of some instructions, one after another. -/
def execAll : List Instr → State → Result
  | [], s => .next s
  | i :: is, s =>
    match exec i s with
    | .next t => execAll is t
    | .fault r => .fault r
    | .refused r => .refused r

/-! ### The invariant -/

/-- A core into which nothing has been loaded has never executed an instruction: program state is as
reset left it (R243, R245; log 23). -/
def State.untouched (s : State) : Prop :=
  s.mem = [] ∧ s.pc = 0x0200 ∧ s.i = 0x0000 ∧ s.sp = 0 ∧ s.dt = 0x00 ∧ s.st = 0x00 ∧
  s.v = Vector.replicate 16 0x00 ∧ s.fb = FrameBuffer.clear

/-- What a latched record says of the state it stands in (R32, R203, R204): PC still addresses the
faulting instruction; a MemoryFault's address lies outside memory, every other kind's is 0. -/
def FaultRecord.agrees (r : FaultRecord) (s : State) : Prop :=
  r.pc = s.pc ∧ (if r.kind = .memoryFault then 0xFFF < r.addr.toNat else r.addr = 0)

/-- The invariant: legal parameters (R7), canonical memory (log 6), a PC that has not wrapped and
return addresses that a call can have pushed (R25, R132, D3), nothing executed before a load (R245),
and a fault latch that agrees with the state (R204). -/
structure State.Inv (s : State) : Prop where
  params   : s.cfg.wellFormed = true
  memory   : Memory.wf s.cfg s.mem = true
  pc       : s.pc.toNat ≤ 0x1002
  stack    : ∀ k (h : k < 16), (s.stack[k]).toNat ≤ 0x1000
  unloaded : s.loaded = false → s.untouched
  latch    : ∀ r, s.fault = some r → r.agrees s

/-! ### Instruction words as the rules of files 40 to 44 write them -/

/-- `op | nnn`. -/
def wordNNN (op : Word) (nnn : BitVec 12) : Word := op ||| nnn.setWidth 16

/-- `op | x<<8`. -/
def wordX (op : Word) (x : Reg) : Word := op ||| BitVec.ofNat 16 x.val <<< 8

/-- `op | x<<8 | nn`. -/
def wordXNN (op : Word) (x : Reg) (nn : Byte) : Word :=
  op ||| BitVec.ofNat 16 x.val <<< 8 ||| nn.setWidth 16

/-- `op | x<<8 | y<<4`. -/
def wordXY (op : Word) (x y : Reg) : Word :=
  op ||| BitVec.ofNat 16 x.val <<< 8 ||| BitVec.ofNat 16 y.val <<< 4

/-- `op | x<<8 | y<<4 | n`. -/
def wordXYN (op : Word) (x y : Reg) (n : BitVec 4) : Word :=
  op ||| BitVec.ofNat 16 x.val <<< 8 ||| BitVec.ofNat 16 y.val <<< 4 ||| n.setWidth 16

/-- The word stands for the instruction, in every FX0A_MODE in which the instruction exists. -/
def Encodes (w : Word) (i : Instr) : Prop :=
  encode i = w ∧ ∀ m, i.wellFormed m = true → decode m w = .ok i

/-- The invalid words, set by set as R76 lists them. -/
def InvalidWord (m : Fx0aMode) (w : Word) : Prop :=
  let f := w.toNat / 4096
  let nn := w.toNat % 256
  let n := w.toNat % 16
  (f = 0x0 ∧ w ≠ 0x00E0 ∧ w ≠ 0x00EE) ∨ (f = 0x5 ∧ n ≠ 0) ∨
  (f = 0x8 ∧ n ∈ [0x8, 0x9, 0xA, 0xB, 0xC, 0xD, 0xF]) ∨ (f = 0x9 ∧ n ≠ 0) ∨ f = 0xB ∨
  (f = 0xE ∧ nn ∉ [0x9E, 0xA1]) ∨
  (f = 0xF ∧ nn ∉ [0x07, 0x0A, 0x15, 0x18, 0x1E, 0x29, 0x33, 0x55, 0x65]) ∨
  (f = 0xF ∧ nn = 0x0A ∧ m = .fault)

/-! ### Effects -/

/-- From `s` to `t`, Vx becomes `b` and every other general register keeps its value. -/
def SetsReg (s t : State) (x : Reg) (b : Byte) : Prop :=
  ∀ k : Reg, t.getV k = if k = x then b else s.getV k

/-- From `s` to `t`, Vx becomes `b`, then VF becomes `f`, and every other register keeps its value. -/
def SetsRegThenFlag (s t : State) (x : Reg) (b f : Byte) : Prop :=
  ∀ k : Reg, t.getV k = if k = vf then f else if k = x then b else s.getV k

/-- The general registers as they are once VF holds `f`. -/
def State.withFlag (s : State) (f : Byte) (k : Reg) : Byte := if k = vf then f else s.getV k

/-- From `s` to `t`, VF becomes `f`, then Vx becomes `op` of Vx and Vy as they then are, and every
other register keeps its value. -/
def SetsFlagThenReg (s t : State) (x y : Reg) (f : Byte) (op : Byte → Byte → Byte) : Prop :=
  ∀ k : Reg, t.getV k =
    if k = x then op (s.withFlag f x) (s.withFlag f y) else s.withFlag f k

/-- The two orders of R101 for a flag `f` and a result `op` of Vx and Vy. -/
def SetsFlagged (s t : State) (x y : Reg) (f : Byte) (op : Byte → Byte → Byte) : Prop :=
  match s.cfg.vfOrder with
  | .docSequential => SetsFlagThenReg s t x y f op
  | .latchedFlagLast => SetsRegThenFlag s t x (op (s.getV x) (s.getV y)) f

/-- From `s` to `t`, the bytes of memory from address `a` on are `bs` and every other byte keeps its
value. -/
def SetsBytes (s t : State) (a : Nat) (bs : List Byte) : Prop :=
  ∀ c, t.readByte c = if h : a ≤ c ∧ c - a < bs.length then bs[c - a]'h.2 else s.readByte c

/-- Whether the n-row sprite of `Dxyn`, its bytes at I, its top left corner at (Vx, Vy), has a set bit
on cell (cx, cy): the cells wrap modulo 64 and 32 (R151, R152). -/
def State.spriteCovers (s : State) (x y : Reg) (n : BitVec 4) (cx cy : Nat) : Bool :=
  (List.range n.toNat).any fun r => (List.range 8).any fun b =>
    (s.readByte (s.i.toNat + r)).getLsbD (7 - b) &&
      ((s.getV x).toNat + b) % 64 == cx && ((s.getV y).toNat + r) % 32 == cy

/-- The sprite has a set bit on a cell of this value in `s` (R152, R153). -/
def State.spriteHits (s : State) (x y : Reg) (n : BitVec 4) (value : Bool) : Prop :=
  ∃ cx cy, cx < 64 ∧ cy < 32 ∧ s.spriteCovers x y n cx cy = true ∧ s.fb.cell cx cy = value

/-! ### The spec's tables of faults and destinations -/

/-- The fault that executing the instruction in this state raises, if any (R200, and the rules of the
instructions; `Fx0A` in `fault` mode is R78). -/
def faultCause (i : Instr) (s : State) : Option FaultKind :=
  match i with
  | .ret => if s.sp = 0 then some .stackUnderflow else none
  | .call _ => if s.sp = 16 then some .stackOverflow else none
  | .skp x | .sknp x => if 15 < (s.getV x).toNat then some .keyIndexFault else none
  | .drw _ _ n => if 0 < n.toNat ∧ 0xFFF < s.i.toNat + n.toNat - 1 then some .memoryFault else none
  | .bcd _ => if 0xFFF < s.i.toNat + 2 then some .memoryFault else none
  | .store x | .load x => if 0xFFF < s.i.toNat + x.val then some .memoryFault else none
  | .ldVK _ => if s.cfg.fx0aMode = .fault then some .invalidInstruction else none
  | .cls | .jp _ | .seImm _ _ | .sneImm _ _ | .seReg _ _ | .ldImm _ _ | .addImm _ _ | .ldReg _ _
  | .or _ _ | .and _ _ | .xor _ _ | .addReg _ _ | .sub _ _ | .shr _ _ | .subn _ _ | .shl _ _
  | .sneReg _ _ | .ldI _ | .rnd _ _ | .ldVDt _ | .ldDtV _ | .ldStV _ | .addI _ | .ldF _ => none

/-- Whether the instruction may write register `k` (the last column of R23). -/
def writesReg (i : Instr) (k : Reg) : Bool :=
  match i with
  | .ldImm x _ | .addImm x _ | .ldReg x _ | .or x _ | .and x _ | .xor x _ | .rnd x _ | .ldVDt x
  | .ldVK x => k == x
  | .addReg x _ | .sub x _ | .subn x _ | .shr x _ | .shl x _ => k == x || k == vf
  | .drw _ _ _ => k == vf
  | .load x => decide (k ≤ x)
  | .cls | .ret | .jp _ | .call _ | .seImm _ _ | .sneImm _ _ | .seReg _ _ | .sneReg _ _ | .ldI _
  | .skp _ | .sknp _ | .ldDtV _ | .ldStV _ | .addI _ | .ldF _ | .bcd _ | .store _ => false

/-- How many bytes of memory the instruction stores, from the address in I on (R58). -/
def bytesStored (i : Instr) : Nat :=
  match i with
  | .bcd _ => 3
  | .store x => x.val + 1
  | .cls | .ret | .jp _ | .call _ | .seImm _ _ | .sneImm _ _ | .seReg _ _ | .ldImm _ _
  | .addImm _ _ | .ldReg _ _ | .or _ _ | .and _ _ | .xor _ _ | .addReg _ _ | .sub _ _ | .shr _ _
  | .subn _ _ | .shl _ _ | .sneReg _ _ | .ldI _ | .rnd _ _ | .drw _ _ _ | .skp _ | .sknp _
  | .ldVDt _ | .ldVK _ | .ldDtV _ | .ldStV _ | .addI _ | .ldF _ | .load _ => 0

/-- Whether the instruction may write I (R24, R35). -/
def writesIndex (p : Params) (i : Instr) : Bool :=
  match i with
  | .ldI _ | .addI _ | .ldF _ => true
  | .store _ | .load _ => p.ldstIncr
  | .cls | .ret | .jp _ | .call _ | .seImm _ _ | .sneImm _ _ | .seReg _ _ | .ldImm _ _
  | .addImm _ _ | .ldReg _ _ | .or _ _ | .and _ _ | .xor _ _ | .addReg _ _ | .sub _ _ | .shr _ _
  | .subn _ _ | .shl _ _ | .sneReg _ _ | .rnd _ _ | .drw _ _ _ | .skp _ | .sknp _
  | .ldVDt _ | .ldVK _ | .ldDtV _ | .ldStV _ | .bcd _ => false

/-- `2nnn` and `00EE`, the only instructions that touch the call stack (R26). -/
def usesStack : Instr → Bool
  | .ret | .call _ => true
  | .cls | .jp _ | .seImm _ _ | .sneImm _ _ | .seReg _ _ | .ldImm _ _
  | .addImm _ _ | .ldReg _ _ | .or _ _ | .and _ _ | .xor _ _ | .addReg _ _ | .sub _ _ | .shr _ _
  | .subn _ _ | .shl _ _ | .sneReg _ _ | .ldI _ | .rnd _ _ | .drw _ _ _ | .skp _ | .sknp _
  | .ldVDt _ | .ldVK _ | .ldDtV _ | .ldStV _ | .addI _ | .ldF _ | .bcd _ | .store _ | .load _ => false

/-- `00E0` and `Dxyn`, the only instructions that write the frame buffer or REDRAW (R30, R31). -/
def usesDisplay : Instr → Bool
  | .cls | .drw _ _ _ => true
  | .ret | .jp _ | .call _ | .seImm _ _ | .sneImm _ _ | .seReg _ _ | .ldImm _ _
  | .addImm _ _ | .ldReg _ _ | .or _ _ | .and _ _ | .xor _ _ | .addReg _ _ | .sub _ _ | .shr _ _
  | .subn _ _ | .shl _ _ | .sneReg _ _ | .ldI _ | .rnd _ _ | .skp _ | .sknp _
  | .ldVDt _ | .ldVK _ | .ldDtV _ | .ldStV _ | .addI _ | .ldF _ | .bcd _ | .store _ | .load _ => false

/-- `Fx15`, `Fx18` and `Cxnn`, by name: the writers of DT (R27), of ST (R28), and the one that takes a
random byte (R235). -/
def writesDelay : Instr → Bool
  | .ldDtV _ => true
  | _ => false

/-- See `writesDelay`. -/
def writesSound : Instr → Bool
  | .ldStV _ => true
  | _ => false

/-- See `writesDelay`. -/
def drawsRandom : Instr → Bool
  | .rnd _ _ => true
  | _ => false

end Sys2Proof.Machine
end

