-- ==== Sys2Proof/Certificates/Slice0/Obligations.lean ====
section
/-! DEFINITION. The statements for the provers. Each docstring names the rule of spec/ it formalises;
where a clause rests on a decision the spec marks as its own, or on a choice of the model, the
docstring names the decision (D<n>) or the log entry. -/

open Sys2Proof Sys2Proof.Machine

/-! ### Encoding and decoding (30_encoding.md) -/

/-- Words written out bit by bit from the encodings of R74, at least one of every family, decode to
what they stand for; `Fx0A` in `wait` mode only (R78). -/
def Obligations.SampleWordsDecode : Prop :=
  decode .fault 0b0000000011100000 = .ok .cls ∧
  decode .fault 0b0000000011101110 = .ok .ret ∧
  decode .fault 0b0001101010111100 = .ok (.jp 0xABC) ∧
  decode .fault 0b0010001100000000 = .ok (.call 0x300) ∧
  decode .fault 0b0011000100010010 = .ok (.seImm 1 0x12) ∧
  decode .fault 0b0100000100010011 = .ok (.sneImm 1 0x13) ∧
  decode .fault 0b0101000100100000 = .ok (.seReg 1 2) ∧
  decode .fault 0b0110001110101011 = .ok (.ldImm 3 0xAB) ∧
  decode .fault 0b0111000000000101 = .ok (.addImm 0 0x05) ∧
  decode .fault 0b1000000100100101 = .ok (.sub 1 2) ∧
  decode .fault 0b1000000100001110 = .ok (.shl 1 0) ∧
  decode .fault 0b1001000100100000 = .ok (.sneReg 1 2) ∧
  decode .fault 0b1010000100100011 = .ok (.ldI 0x123) ∧
  decode .fault 0b1100000100001111 = .ok (.rnd 1 0x0F) ∧
  decode .fault 0b1101101111000101 = .ok (.drw 0xB 0xC 5) ∧
  decode .fault 0b1110000110100001 = .ok (.sknp 1) ∧
  decode .fault 0b1111001001100101 = .ok (.load 2) ∧
  decode .fault 0b1111001000001010 = .error .keyWaitUnsupported ∧
  decode .wait 0b1111001000001010 = .ok (.ldVK 2)

/-- Decoding an encoded instruction gives it back, for every instruction the mode has (R75, R77). -/
def Obligations.DecodeInvertsEncode : Prop :=
  ∀ (m : Fx0aMode) (i : Instr), i.wellFormed m = true → decode m (encode i) = .ok i

/-- A word that decodes is the encoding of what it decodes to: each word has one meaning (R75, R77). -/
def Obligations.EncodeInvertsDecode : Prop :=
  ∀ (m : Fx0aMode) (w : Word) (i : Instr), decode m w = .ok i → encode i = w ∧ i.wellFormed m = true

/-- Decode rejects exactly the words of R76's list, set by set. The strictness is the spec's own
decision (D5, D6; log 11, log 15). -/
def Obligations.RejectsExactlyTheInvalidWords : Prop :=
  ∀ (m : Fx0aMode) (w : Word), (∃ e, decode m w = .error e) ↔ InvalidWord m w

/-! ### Fetch and step (20_memory.md R52, R53; 30_encoding.md R80) -/

/-- Fetch reads the bytes at PC and PC + 1, the first as bits 15..8 (R52); outside memory it gives the
lowest failing address and never wraps (R53; the spec's own decision D4, log 14). -/
def Obligations.FetchIsBigEndianAndChecked : Prop :=
  ∀ s : State,
    (s.pc.toNat ≤ 0xFFE → ∃ w, s.fetch = .ok w ∧
      w.toNat = 256 * (s.readByte s.pc.toNat).toNat + (s.readByte (s.pc.toNat + 1)).toNat) ∧
    (s.pc.toNat = 0xFFF → s.fetch = .error 0x1000) ∧
    (0xFFF < s.pc.toNat → s.fetch = .error s.pc.toNat)

/-- A step of a running core executes the instruction that the bytes at PC decode to (R80), both when
no strobe of the host is pending and when the oldest pending one is EXEC (log 2). -/
def Obligations.StepRunsDecodedInstruction : Prop :=
  ∀ (s : State) (i : Instr), s.fault = none → s.pc.toNat ≤ 0xFFE →
    decode s.cfg.fx0aMode
      (wordOfBytes (s.readByte s.pc.toNat) (s.readByte (s.pc.toNat + 1))) = .ok i →
    (s.strobes = [] → step s = exec i s) ∧
    (∀ rest, s.strobes = .exec :: rest → step s = exec i { s with strobes := rest })

/-- Placing a word where the next step fetches makes the very next step run its instruction; the two
bytes at PC, the fault latch, the pending strobes and an unfetchable PC are all that changes (the
model's choice, log 24). -/
def Obligations.PlacedWordRunsNext : Prop :=
  ∀ (s : State) (w : Word) (i : Instr), Memory.wf s.cfg s.mem = true →
    decode s.cfg.fx0aMode w = .ok i →
    let t := s.withFetchWord 16 w.toNat
    step t = exec i t ∧ t.pc = (if s.pc.toNat ≤ 0xFFE then s.pc else 0x0200) ∧
    SetsBytes s t t.pc.toNat [highByte w, lowByte w] ∧
    t = { s with mem := t.mem, pc := t.pc, fault := none, strobes := [] }

/-- A fetch outside memory latches MemoryFault with word 0x0000 and the lowest failing address and
changes nothing else (R53, R204, R206; the spec's own decisions D4, D7, D9). -/
def Obligations.FetchOutsideMemoryFaults : Prop :=
  ∀ s : State, s.strobes = [] → s.fault = none → 0xFFE < s.pc.toNat →
    step s = .next { s with
      fault := some ⟨.memoryFault, 0x0000, s.pc, BitVec.ofNat 16 (max s.pc.toNat 0x1000)⟩ }

/-- Executing an invalid word latches InvalidInstruction with that word and changes nothing else (R76,
R204; the spec's own decisions D5, D7, D9). -/
def Obligations.InvalidWordFaults : Prop :=
  ∀ s : State, s.strobes = [] → s.fault = none → s.pc.toNat ≤ 0xFFE →
    let w := wordOfBytes (s.readByte s.pc.toNat) (s.readByte (s.pc.toNat + 1))
    InvalidWord s.cfg.fx0aMode w →
    step s = .next { s with fault := some ⟨.invalidInstruction, w, s.pc, 0⟩ }

/-- A halted core: EXEC reports the latched record, TICK changes nothing, a step call returns the fault
with the state as it was (R205, R250; the spec's own decision D8; the report is the outcome `fault`,
log 3). -/
def Obligations.HaltedCoreChangesNothing : Prop :=
  ∀ (s : State) (r : FaultRecord), s.fault = some r →
    execStrobe s = .fault (.halted r) ∧ tick s = s ∧ ∀ n, stepCall n s = .faulted r s

/-! ### Faults of instructions (60_exceptions.md R200-R206) -/

/-- Every instruction answers a next state on a running core, and it latches a fault exactly when its
rule says, of the kind its rule says (R200, R206; KeyIndexFault is the spec's own decision D15). -/
def Obligations.FaultsExactlyWhenTheRulesSay : Prop :=
  ∀ (i : Instr) (s : State), s.fault = none →
    ∃ t, exec i s = .next t ∧ t.fault.map (·.kind) = faultCause i s

/-- A faulting instruction writes nothing but the latch, which records its word, its address, and the
offending address of a MemoryFault, 0 for the other kinds (R82, R203, R204; the spec's own decisions
D7, D9). -/
def Obligations.InstructionFaultsArePrecise : Prop :=
  ∀ (i : Instr) (s t : State) (r : FaultRecord), s.fault = none → exec i s = .next t →
    t.fault = some r →
    t = { s with fault := some r } ∧ r.word = encode i ∧ r.pc = s.pc ∧
    (if r.kind = .memoryFault then r.addr.toNat = max s.i.toNat 0x1000 else r.addr = 0)

/-- A data access outside memory latches MemoryFault with the lowest failing address, max(I, 0x1000),
and writes nothing (R152, R163, R164, R165; the spec's own decisions D7, D10; log 14, log 16). -/
def Obligations.AccessOutsideMemoryFaults : Prop :=
  ∀ (s : State) (x y : Reg) (n : BitVec 4), s.fault = none →
    let latched (w : Word) : State :=
      { s with fault := some ⟨.memoryFault, w, s.pc, BitVec.ofNat 16 (max s.i.toNat 0x1000)⟩ }
    (0 < n.toNat → 0xFFF < s.i.toNat + n.toNat - 1 →
      exec (.drw x y n) s = .next (latched (wordXYN 0xD000 x y n))) ∧
    (0xFFF < s.i.toNat + 2 → exec (.bcd x) s = .next (latched (wordX 0xF033 x))) ∧
    (0xFFF < s.i.toNat + x.val → exec (.store x) s = .next (latched (wordX 0xF055 x))) ∧
    (0xFFF < s.i.toNat + x.val → exec (.load x) s = .next (latched (wordX 0xF065 x)))

/-! ### Whole-machine frames (10_state.md R23-R35; 20_memory.md R58) -/

/-- No instruction writes a general register but those R23 lists for it. -/
def Obligations.OnlyListedRegistersAreWritten : Prop :=
  ∀ (i : Instr) (s t : State) (k : Reg), exec i s = .next t → writesReg i k = false →
    t.getV k = s.getV k

/-- `Fx33` stores three bytes and `Fx55` x + 1 bytes from the address in I on; no other byte of memory
changes, and no other instruction changes any (R58). -/
def Obligations.OnlyStoredBytesChange : Prop :=
  ∀ (i : Instr) (s t : State) (a : Nat), Memory.wf s.cfg s.mem = true → exec i s = .next t →
    ¬ (s.indexAddr ≤ a ∧ a < s.indexAddr + bytesStored i) → t.readByte a = s.readByte a

/-- I, the call stack, the timers, the frame buffer, REDRAW and the random source are written by the
instructions the state rules name and by no other; the keys, TONE, Loaded, the parameters and the
host's strobes by none (R24, R26-R31, R33, R35, R235; `cfg`, `drawIndex` and `strobes` are the model's
own fields, log 1, 2, 4). -/
def Obligations.OnlyListedInstructionsWriteSpecialState : Prop :=
  ∀ (i : Instr) (s t : State), exec i s = .next t →
    (writesIndex s.cfg i = false → t.i = s.i) ∧
    (usesStack i = false → t.sp = s.sp ∧ t.stack = s.stack) ∧
    (writesDelay i = false → t.dt = s.dt) ∧
    (writesSound i = false → t.st = s.st) ∧
    (usesDisplay i = false → t.fb = s.fb ∧ t.redraw = s.redraw) ∧
    t.drawIndex = (if drawsRandom i then s.drawIndex + 1 else s.drawIndex) ∧
    t.keys = s.keys ∧ t.tone = s.tone ∧ t.loaded = s.loaded ∧ t.cfg = s.cfg ∧ t.strobes = s.strobes

/-! ### Register and ALU instructions (40_alu.md) -/

/-- `6xnn` (R102). -/
def Obligations.LoadImmediateSetsVx : Prop :=
  ∀ (s : State) (x : Reg) (nn : Byte),
    Encodes (wordXNN 0x6000 x nn) (.ldImm x nn) ∧
    ∃ t, exec (.ldImm x nn) s = .next t ∧ SetsReg s t x nn ∧ t = { s with v := t.v, pc := s.pc + 2 }

/-- `7xnn`: the sum modulo 256, no flag (R103). -/
def Obligations.AddImmediateWraps : Prop :=
  ∀ (s : State) (x : Reg) (nn : Byte),
    Encodes (wordXNN 0x7000 x nn) (.addImm x nn) ∧
    ∃ t, exec (.addImm x nn) s = .next t ∧
      SetsReg s t x (BitVec.ofNat 8 ((s.getV x).toNat + nn.toNat)) ∧
      t = { s with v := t.v, pc := s.pc + 2 }

/-- `8xy0` (R104). -/
def Obligations.MoveCopiesVy : Prop :=
  ∀ (s : State) (x y : Reg),
    Encodes (wordXY 0x8000 x y) (.ldReg x y) ∧
    ∃ t, exec (.ldReg x y) s = .next t ∧ SetsReg s t x (s.getV y) ∧
      t = { s with v := t.v, pc := s.pc + 2 }

/-- `8xy1`, `8xy2`, `8xy3`: bit by bit, no flag (R105, R106, R107). -/
def Obligations.LogicIsBitwise : Prop :=
  ∀ (s : State) (x y : Reg),
    Encodes (wordXY 0x8001 x y) (.or x y) ∧ Encodes (wordXY 0x8002 x y) (.and x y) ∧
    Encodes (wordXY 0x8003 x y) (.xor x y) ∧
    (∃ t b, exec (.or x y) s = .next t ∧ SetsReg s t x b ∧
      (∀ j, b.getLsbD j = ((s.getV x).getLsbD j || (s.getV y).getLsbD j)) ∧
      t = { s with v := t.v, pc := s.pc + 2 }) ∧
    (∃ t b, exec (.and x y) s = .next t ∧ SetsReg s t x b ∧
      (∀ j, b.getLsbD j = ((s.getV x).getLsbD j && (s.getV y).getLsbD j)) ∧
      t = { s with v := t.v, pc := s.pc + 2 }) ∧
    (∃ t b, exec (.xor x y) s = .next t ∧ SetsReg s t x b ∧
      (∀ j, b.getLsbD j = ((s.getV x).getLsbD j ^^ (s.getV y).getLsbD j)) ∧
      t = { s with v := t.v, pc := s.pc + 2 })

/-- `8xy4`: the sum modulo 256 to Vx, then VF = 1 exactly when the exact sum exceeds 255, in both
orders and whichever of x, y is 15 (R108). -/
def Obligations.AddSetsCarry : Prop :=
  ∀ (s : State) (x y : Reg),
    Encodes (wordXY 0x8004 x y) (.addReg x y) ∧
    ∃ t, exec (.addReg x y) s = .next t ∧
      SetsRegThenFlag s t x (BitVec.ofNat 8 ((s.getV x).toNat + (s.getV y).toNat))
        (if 255 < (s.getV x).toNat + (s.getV y).toNat then 0x01 else 0x00) ∧
      t = { s with v := t.v, pc := s.pc + 2 }

/-- `8xy5` and `8xy7`: the difference modulo 256 to Vx, VF = no borrow, in the order of VF_ALIAS_MODE,
whichever it is and whichever of x, y is 15 (R110, R113; the parameter is the spec's own decision D13,
log 10). -/
def Obligations.SubtractSetsNoBorrow : Prop :=
  ∀ (s : State) (x y : Reg),
    let minus (a b : Byte) : Byte := BitVec.ofNat 8 (a.toNat + 256 - b.toNat)
    Encodes (wordXY 0x8005 x y) (.sub x y) ∧ Encodes (wordXY 0x8007 x y) (.subn x y) ∧
    (∃ t, exec (.sub x y) s = .next t ∧
      SetsFlagged s t x y (if (s.getV y).toNat ≤ (s.getV x).toNat then 0x01 else 0x00) minus ∧
      t = { s with v := t.v, pc := s.pc + 2 }) ∧
    (∃ t, exec (.subn x y) s = .next t ∧
      SetsFlagged s t x y (if (s.getV x).toNat ≤ (s.getV y).toNat then 0x01 else 0x00)
        (fun a b => minus b a) ∧
      t = { s with v := t.v, pc := s.pc + 2 })

/-- `8xy6` and `8xyE`: Vx halved or doubled modulo 256, VF = the bit moved out, in the order of
VF_ALIAS_MODE; y has no effect (R111, R112, R114; the parameter is the spec's own decision D13,
log 10). -/
def Obligations.ShiftsMoveOneBitOut : Prop :=
  ∀ (s : State) (x y : Reg),
    Encodes (wordXY 0x8006 x y) (.shr x y) ∧ Encodes (wordXY 0x800E x y) (.shl x y) ∧
    (∃ t, exec (.shr x y) s = .next t ∧
      SetsFlagged s t x x (BitVec.ofNat 8 ((s.getV x).toNat % 2))
        (fun a _ => BitVec.ofNat 8 (a.toNat / 2)) ∧
      t = { s with v := t.v, pc := s.pc + 2 }) ∧
    (∃ t, exec (.shl x y) s = .next t ∧
      SetsFlagged s t x x (BitVec.ofNat 8 ((s.getV x).toNat / 128))
        (fun a _ => BitVec.ofNat 8 (a.toNat * 2)) ∧
      t = { s with v := t.v, pc := s.pc + 2 })

/-- When neither operand is VF the two orders of VF_ALIAS_MODE give the same registers (R101; the
parameter is the spec's own decision D13, log 10). -/
def Obligations.FlagOrderMattersOnlyForVf : Prop :=
  ∀ (s : State) (x y : Reg) (i : Instr), x ≠ vf → y ≠ vf →
    i ∈ [Instr.addReg x y, .sub x y, .shr x y, .subn x y, .shl x y] →
    ∃ t u, exec i { s with cfg := { s.cfg with vfOrder := .docSequential } } = .next t ∧
      exec i { s with cfg := { s.cfg with vfOrder := .latchedFlagLast } } = .next u ∧ t.v = u.v

/-- `Cxnn`: the next byte of the random source, whatever it is, masked; the source moves on by one
(R120, R235; the byte is a free value, D26, log 4). -/
def Obligations.RandomByteIsMasked : Prop :=
  ∀ (s : State) (x : Reg) (nn : Byte),
    Encodes (wordXNN 0xC000 x nn) (.rnd x nn) ∧
    ∃ t, exec (.rnd x nn) s = .next t ∧ SetsReg s t x (Config.draw s.drawIndex &&& nn) ∧
      t = { s with v := t.v, pc := s.pc + 2, drawIndex := s.drawIndex + 1 }

/-! ### Control flow (41_control_flow.md) -/

/-- `00EE`: PC becomes the popped address; with an empty stack StackUnderflow is raised and nothing
else changes (R130; the latch is the spec's own decision D8, D9; log 3, log 17). -/
def Obligations.ReturnPopsTheStack : Prop :=
  ∀ s : State,
    Encodes 0x00EE .ret ∧
    (∀ h : 0 < s.sp.val, ∃ t, exec .ret s = .next t ∧ t.sp.val = s.sp.val - 1 ∧
      t.pc = s.stack[s.sp.val - 1]'(by omega) ∧ t = { s with sp := t.sp, pc := t.pc }) ∧
    (s.sp = 0 → s.fault = none → ∃ r, exec .ret s = .next { s with fault := some r } ∧
      r.kind = .stackUnderflow ∧ r.word = 0x00EE)

/-- `1nnn` (R131). -/
def Obligations.JumpSetsPc : Prop :=
  ∀ (s : State) (nnn : BitVec 12),
    Encodes (wordNNN 0x1000 nnn) (.jp nnn) ∧
    ∃ t, exec (.jp nnn) s = .next t ∧ t.pc.toNat = nnn.toNat ∧ t = { s with pc := t.pc }

/-- `2nnn`: pushes PC + 2 and jumps; with a full stack StackOverflow is raised and nothing else changes
(R132; the pushed address is the spec's own decision D2, log 12). -/
def Obligations.CallPushesTheNextAddress : Prop :=
  ∀ (s : State) (nnn : BitVec 12),
    Encodes (wordNNN 0x2000 nnn) (.call nnn) ∧
    (s.sp.val < 16 → ∃ t, exec (.call nnn) s = .next t ∧ t.sp.val = s.sp.val + 1 ∧
      t.pc.toNat = nnn.toNat ∧
      (∀ k (h : k < 16), t.stack[k] = if k = s.sp.val then s.pc + 2 else s.stack[k]) ∧
      t = { s with sp := t.sp, stack := t.stack, pc := t.pc }) ∧
    (s.sp = 16 → s.fault = none → ∃ r, exec (.call nnn) s = .next { s with fault := some r } ∧
      r.kind = .stackOverflow ∧ r.word = wordNNN 0x2000 nnn)

/-- A call, then any computation that leaves the call stack as the call left it, then a return, goes on
at the word after the call with the stack pointer as before (R130, R132, R139; D2, log 12). -/
def Obligations.ReturnResumesAfterTheCall : Prop :=
  ∀ (s : State) (nnn : BitVec 12), s.sp.val < 16 →
    ∃ t, exec (.call nnn) s = .next t ∧
      ∀ u : State, u.sp = t.sp → u.stack = t.stack →
        ∃ w, exec .ret u = .next w ∧ w.pc = s.pc + 2 ∧ w.sp = s.sp

/-- Sixteen calls from an empty stack, to any targets, succeed and fill it; the seventeenth raises
StackOverflow (R132; the latch is the spec's own decision D8, log 17). -/
def Obligations.SeventeenthCallOverflows : Prop :=
  ∀ (s : State) (targets : List (BitVec 12)), s.sp = 0 → s.fault = none → targets.length = 16 →
    ∃ t, execAll (targets.map .call) s = .next t ∧ t.sp = 16 ∧ t.fault = none ∧
      ∀ nnn, ∃ r, exec (.call nnn) t = .next { t with fault := some r } ∧ r.kind = .stackOverflow

/-- `3xnn` and `4xnn` (R133, R134). -/
def Obligations.SkipOnImmediate : Prop :=
  ∀ (s : State) (x : Reg) (nn : Byte),
    Encodes (wordXNN 0x3000 x nn) (.seImm x nn) ∧ Encodes (wordXNN 0x4000 x nn) (.sneImm x nn) ∧
    exec (.seImm x nn) s = .next { s with pc := if s.getV x = nn then s.pc + 4 else s.pc + 2 } ∧
    exec (.sneImm x nn) s = .next { s with pc := if s.getV x ≠ nn then s.pc + 4 else s.pc + 2 }

/-- `5xy0` and `9xy0` (R135, R136). -/
def Obligations.SkipOnRegisters : Prop :=
  ∀ (s : State) (x y : Reg),
    Encodes (wordXY 0x5000 x y) (.seReg x y) ∧ Encodes (wordXY 0x9000 x y) (.sneReg x y) ∧
    exec (.seReg x y) s
      = .next { s with pc := if s.getV x = s.getV y then s.pc + 4 else s.pc + 2 } ∧
    exec (.sneReg x y) s
      = .next { s with pc := if s.getV x ≠ s.getV y then s.pc + 4 else s.pc + 2 }

/-- `Ex9E` and `ExA1`: the key numbered Vx; a number above 15 raises KeyIndexFault and nothing else
changes (R137, R138; the fault is the spec's own decision D15, log 18). -/
def Obligations.SkipOnKey : Prop :=
  ∀ (s : State) (x : Reg),
    Encodes (wordX 0xE09E x) (.skp x) ∧ Encodes (wordX 0xE0A1 x) (.sknp x) ∧
    (∀ h : (s.getV x).toNat < 16,
      exec (.skp x) s
        = .next { s with pc := if s.keys[(s.getV x).toNat] = true then s.pc + 4 else s.pc + 2 } ∧
      exec (.sknp x) s
        = .next { s with pc := if s.keys[(s.getV x).toNat] = false then s.pc + 4 else s.pc + 2 }) ∧
    (15 < (s.getV x).toNat → s.fault = none →
      exec (.skp x) s
        = .next { s with fault := some ⟨.keyIndexFault, wordX 0xE09E x, s.pc, 0⟩ } ∧
      exec (.sknp x) s
        = .next { s with fault := some ⟨.keyIndexFault, wordX 0xE0A1 x, s.pc, 0⟩ })

/-! ### Frame buffer (42_display.md) -/

/-- `00E0`: every cell 0, REDRAW set, VF not written (R150; REDRAW even when nothing changed is the
spec's own decision D20, log 20). -/
def Obligations.ClearScreenClearsEveryCell : Prop :=
  ∀ s : State,
    Encodes 0x00E0 .cls ∧
    ∃ t, exec .cls s = .next t ∧ (∀ x y, x < 64 → y < 32 → t.fb.cell x y = false) ∧
      t = { s with fb := t.fb, redraw := true, pc := s.pc + 2 }

/-- `Dxyn`, when every row lies in memory: exactly the cells under a set bit of the sprite flip, VF = 1
exactly when one of them was 1, REDRAW is set (R151, R152; the order of the reads, n = 0 and REDRAW
are the spec's own decisions D14, D31, D20; log 19, log 20). -/
def Obligations.DrawFlipsTheSpriteCells : Prop :=
  ∀ (s : State) (x y : Reg) (n : BitVec 4),
    Encodes (wordXYN 0xD000 x y n) (.drw x y n) ∧
    (n.toNat = 0 ∨ s.i.toNat + n.toNat - 1 ≤ 0xFFF →
      ∃ t f, exec (.drw x y n) s = .next t ∧
        (∀ cx cy, cx < 64 → cy < 32 →
          t.fb.cell cx cy = (s.fb.cell cx cy ^^ s.spriteCovers x y n cx cy)) ∧
        SetsReg s t vf f ∧ (f = 0x00 ∨ f = 0x01) ∧ (f = 0x01 ↔ s.spriteHits x y n true) ∧
        t = { s with v := t.v, fb := t.fb, redraw := true, pc := s.pc + 2 })

/-- Drawing twice: a second draw with the same Vx, Vy, I and memory gives back the frame buffer as it
was before the first, and sets VF = 1 exactly when a set bit maps to a cell that was 0 before the first
(R153, as 90_conflicts.md C3 settles it). -/
def Obligations.DrawTwiceRestoresTheScreen : Prop :=
  ∀ (s t u : State) (x y : Reg) (n : BitVec 4),
    (n.toNat = 0 ∨ s.i.toNat + n.toNat - 1 ≤ 0xFFF) → exec (.drw x y n) s = .next t →
    u.fb = t.fb → u.getV x = s.getV x → u.getV y = s.getV y → u.i = s.i →
    (∀ a, u.readByte a = s.readByte a) →
    ∃ w, exec (.drw x y n) u = .next w ∧ w.fb = s.fb ∧
      (w.getV vf = 0x01 ↔ s.spriteHits x y n false)

/-! ### Index register and memory transfers (43_index_memory.md) -/

/-- `Annn` (R160). -/
def Obligations.LoadIndexSetsI : Prop :=
  ∀ (s : State) (nnn : BitVec 12),
    Encodes (wordNNN 0xA000 nnn) (.ldI nnn) ∧
    ∃ t, exec (.ldI nnn) s = .next t ∧ t.i.toNat = nnn.toNat ∧
      t = { s with i := t.i, pc := s.pc + 2 }

/-- `Fx1E`: the sum modulo 2^16, no flag, no fault (R161; the wrap is the spec's own decision D11,
log 32). -/
def Obligations.AddToIndexWraps : Prop :=
  ∀ (s : State) (x : Reg),
    Encodes (wordX 0xF01E x) (.addI x) ∧
    ∃ t, exec (.addI x) s = .next t ∧ t.i.toNat = (s.i.toNat + (s.getV x).toNat) % 65536 ∧
      t = { s with i := t.i, pc := s.pc + 2 }

/-- `Fx29`: FONT_BASE + Vx * 5, the whole byte (R162). -/
def Obligations.GlyphAddressIsFontBasePlusFiveVx : Prop :=
  ∀ (s : State) (x : Reg),
    Encodes (wordX 0xF029 x) (.ldF x) ∧
    ∃ t, exec (.ldF x) s = .next t ∧
      t.i.toNat = (s.cfg.fontBase.toNat + (s.getV x).toNat * 5) % 65536 ∧
      t = { s with i := t.i, pc := s.pc + 2 }

/-- `Fx33`, when I + 2 lies in memory: hundreds, tens and units of Vx at I, I + 1, I + 2, every other
byte kept, I unmodified (R163; D7, D10). -/
def Obligations.BcdStoresThreeDigits : Prop :=
  ∀ (s : State) (x : Reg), Memory.wf s.cfg s.mem = true →
    Encodes (wordX 0xF033 x) (.bcd x) ∧
    (s.i.toNat + 2 ≤ 0xFFF →
      ∃ t, exec (.bcd x) s = .next t ∧
        (t.readByte s.indexAddr).toNat = (s.getV x).toNat / 100 ∧
        (t.readByte (s.indexAddr + 1)).toNat = (s.getV x).toNat / 10 % 10 ∧
        (t.readByte (s.indexAddr + 2)).toNat = (s.getV x).toNat % 10 ∧
        (∀ a, a < s.indexAddr ∨ s.indexAddr + 2 < a → t.readByte a = s.readByte a) ∧
        t = { s with mem := t.mem, pc := s.pc + 2 })

/-- `Fx55`, when I + x lies in memory: V0..Vx at I..I + x, every other byte kept; I moves on by x + 1
only under LDST_I_INCREMENT (R164, R166; D7, D12; log 9). -/
def Obligations.StoreWritesTheRegisters : Prop :=
  ∀ (s : State) (x : Reg), Memory.wf s.cfg s.mem = true →
    Encodes (wordX 0xF055 x) (.store x) ∧
    (s.i.toNat + x.val ≤ 0xFFF →
      ∃ t, exec (.store x) s = .next t ∧
        (∀ k : Reg, k ≤ x → t.readByte (s.indexAddr + k.val) = s.getV k) ∧
        (∀ a, a < s.indexAddr ∨ s.indexAddr + x.val < a → t.readByte a = s.readByte a) ∧
        t.i.toNat = (if s.cfg.ldstIncr then (s.i.toNat + x.val + 1) % 65536 else s.i.toNat) ∧
        t = { s with mem := t.mem, i := t.i, pc := s.pc + 2 })

/-- `Fx65`, when I + x lies in memory: V0..Vx from I..I + x, the other registers kept; I moves on by
x + 1 only under LDST_I_INCREMENT (R165, R166; D7, D12; log 9). -/
def Obligations.LoadReadsTheRegisters : Prop :=
  ∀ (s : State) (x : Reg),
    Encodes (wordX 0xF065 x) (.load x) ∧
    (s.i.toNat + x.val ≤ 0xFFF →
      ∃ t, exec (.load x) s = .next t ∧
        (∀ k : Reg, t.getV k = if k ≤ x then s.readByte (s.indexAddr + k.val) else s.getV k) ∧
        t.i.toNat = (if s.cfg.ldstIncr then (s.i.toNat + x.val + 1) % 65536 else s.i.toNat) ∧
        t = { s with v := t.v, i := t.i, pc := s.pc + 2 })

/-- Fetch sees what `Fx55` stored: a fetch from inside the stored bytes gives the stored registers, the
lower-numbered one as bits 15..8 (R62, R261). -/
def Obligations.FetchSeesStoredCode : Prop :=
  ∀ (s t u : State) (x k : Reg) (h : k.val + 1 < 16), Memory.wf s.cfg s.mem = true → k < x →
    s.i.toNat + x.val ≤ 0xFFF → exec (.store x) s = .next t →
    u.mem = t.mem → u.cfg = t.cfg → u.pc.toNat = s.i.toNat + k.val →
    u.fetch = .ok (wordOfBytes (s.getV k) (s.getV ⟨k.val + 1, h⟩))

/-! ### Timers and keys (44_timers_keys.md; 60_exceptions.md R220, R221) -/

/-- `Fx07` (R180). -/
def Obligations.ReadDelayTimer : Prop :=
  ∀ (s : State) (x : Reg),
    Encodes (wordX 0xF007 x) (.ldVDt x) ∧
    ∃ t, exec (.ldVDt x) s = .next t ∧ SetsReg s t x s.dt ∧ t = { s with v := t.v, pc := s.pc + 2 }

/-- `Fx15` and `Fx18`: the timer becomes Vx; no tone edge (R182, R183). -/
def Obligations.SetTimers : Prop :=
  ∀ (s : State) (x : Reg),
    Encodes (wordX 0xF015 x) (.ldDtV x) ∧ Encodes (wordX 0xF018 x) (.ldStV x) ∧
    exec (.ldDtV x) s = .next { s with dt := s.getV x, pc := s.pc + 2 } ∧
    exec (.ldStV x) s = .next { s with st := s.getV x, pc := s.pc + 2 }

/-- `Fx0A`: in `wait` mode the lowest-numbered held key goes to Vx, and with none held nothing changes;
in `fault` mode it is an invalid instruction (R78, R181; the spec's own decision D6, log 11). -/
def Obligations.KeyWaitTakesTheLowestHeldKey : Prop :=
  ∀ (s : State) (x : Reg),
    Encodes (wordX 0xF00A x) (.ldVK x) ∧
    (∀ k : Reg, s.cfg.fx0aMode = .wait → s.keyHeld k = true → (∀ j, j < k → s.keyHeld j = false) →
      ∃ t, exec (.ldVK x) s = .next t ∧ SetsReg s t x (BitVec.ofNat 8 k.val) ∧
        t = { s with v := t.v, pc := s.pc + 2 }) ∧
    (s.cfg.fx0aMode = .wait → (∀ j, s.keyHeld j = false) → exec (.ldVK x) s = .next s) ∧
    (s.cfg.fx0aMode = .fault → s.fault = none → exec (.ldVK x) s
      = .next { s with fault := some ⟨.invalidInstruction, wordX 0xF00A x, s.pc, 0⟩ })

/-- The tick of a running core: each timer goes down by one and stops at 0, TONE is 1 exactly when the
sound timer was 1, and nothing else changes; a halted core's tick changes nothing (R220, R221; the spec's own decisions D8,
D36; log 17, log 26). -/
def Obligations.TickCountsDown : Prop :=
  ∀ s : State,
    (s.fault = none →
      (tick s).dt.toNat = s.dt.toNat - 1 ∧ (tick s).st.toNat = s.st.toNat - 1 ∧
      ((tick s).tone = true ↔ s.st = 0x01) ∧
      tick s = { s with dt := (tick s).dt, st := (tick s).st, tone := (tick s).tone }) ∧
    (s.fault ≠ none → tick s = s)

/-! ### The host's ports (60_exceptions.md R230-R234; 70_reset_and_hazards.md) -/

/-- A step call that returns Ok does what its strobes do one after another: N EXECs, then one TICK
(R222, R250; the strobes are the spec's own decision D1, D21; log 2, log 21). -/
def Obligations.StepCallIsItsStrobes : Prop :=
  ∀ (n : Nat) (s u : State) (rest : List Strobe), stepCall n s = .ok u →
    Host.Core.run Sys2Proof.core (n + 1) { s with strobes := stepCallStrobes n ++ rest }
      = .next { u with strobes := rest }

/-- A fault ends a step call: the state it leaves was reached by at most N execs, it holds the latched
record, and no tick has happened (R205, R250; D8). -/
def Obligations.FaultEndsTheStepCall : Prop :=
  ∀ (n : Nat) (s t : State) (r : FaultRecord), stepCall n s = .faulted r t →
    t.fault = some r ∧ ∃ m, m ≤ n ∧ execRun m s = .next t

/-- The batch size is the nearest whole number to elapsed * IPS; an exact half goes away from zero or
to the even number, as ROUND says (R250, R251; rational times only, D22, D43, log 22). -/
def Obligations.BatchSizeIsTheNearestNumber : Prop :=
  ∀ (p : Params) (num den : Nat), p.wellFormed = true → 0 < den →
    let a := num * p.ipsNum
    let d := den * p.ipsDen
    let n := batchSize p num den
    2 * a ≤ 2 * n * d + d ∧ 2 * n * d ≤ 2 * a + d ∧
    (2 * (a % d) = d → p.round = .halfAwayFromZero → n = a / d + 1) ∧
    (2 * (a % d) = d → p.round = .halfEven → n % 2 = 0)

/-- LOAD after reset and before the first exec writes the image from 0x200 on, verbatim, keeps every
other byte and sets Loaded (R243; when it is accepted is the spec's own decision D25, log 23). -/
def Obligations.LoadWritesTheImage : Prop :=
  ∀ (s : State) (image : List Byte), Memory.wf s.cfg s.mem = true → s.loaded = false →
    s.fault = none → image.length ≤ 3584 →
    ∃ t, loadPort image s = .loadOk t ∧ SetsBytes s t 0x200 image ∧
      t = { s with mem := t.mem, loaded := true }

/-- LOAD of more than 3584 bytes is rejected and changes nothing; a second LOAD, or one on a halted
core, is refused (R202, R243; D25, U19; log 23). -/
def Obligations.LoadRejectsAndRefuses : Prop :=
  ∀ (s : State) (image : List Byte) (rest : List Strobe), s.strobes = .load image :: rest →
    (s.loaded = false → s.fault = none → 3584 < image.length →
      loadPort image s = .programTooLarge ∧ step s = .next { s with strobes := rest }) ∧
    (s.loaded = true ∨ s.fault ≠ none → step s = .refused .loadOutsideContract)

/-- KEY_DOWN, KEY_UP and REDRAW_ACK, on a halted core too, change the one bit they name and nothing else
(R232, R233; D20, D24; the pending strobe is taken from the model's list, log 2). -/
def Obligations.HostEventsChangeOneBit : Prop :=
  ∀ (s : State) (id : Reg) (rest : List Strobe),
    (s.strobes = .keyDown id :: rest → ∃ t, step s = .next t ∧
      (∀ k, t.keyHeld k = if k = id then true else s.keyHeld k) ∧
      t = { s with keys := t.keys, strobes := rest }) ∧
    (s.strobes = .keyUp id :: rest → ∃ t, step s = .next t ∧
      (∀ k, t.keyHeld k = if k = id then false else s.keyHeld k) ∧
      t = { s with keys := t.keys, strobes := rest }) ∧
    (s.strobes = .redrawAck :: rest → step s = .next { s with redraw := false, strobes := rest })

/-- What the host reads: the frame-buffer port holds cell (x, y) at bit y * 64 + x, the memory snapshot
all 4096 bytes, the FAULT status port 0 or the code of the latched kind (R201, R230, R234; the spec's
own decisions D9, D23, D41; log 25, log 31, log 34). -/
def Obligations.OutputPortsShowTheState : Prop :=
  ∀ s : State,
    (frameBufferPort s).length = 2048 ∧
    (∀ x y, x < 64 → y < 32 → (frameBufferPort s)[y * 64 + x]? = some (s.fb.cell x y)) ∧
    (memorySnapshot s).length = 4096 ∧
    (∀ a, a < 4096 → (memorySnapshot s)[a]? = some (s.readByte a)) ∧
    (s.fault = none → faultCode s = 0) ∧
    (∀ r, s.fault = some r → (r.kind, faultCode s) ∈ [(FaultKind.invalidInstruction, 1),
      (.stackOverflow, 2), (.stackUnderflow, 3), (.memoryFault, 4), (.keyIndexFault, 5)])

/-- The reset state, under any parameters: registers, I and the stack 0, PC 0x200, SP 0, timers 0, no
key held, the screen clear, REDRAW, TONE and Loaded 0, FAULT none, memory the font and 0x00 elsewhere
(R240, R241; but for V, I, PC and the font the values are the spec's own decision D18, log 5). -/
def Obligations.ResetState : Prop :=
  ∀ p : Params,
    let s := State.resetWith p
    (∀ k, s.getV k = 0x00) ∧ s.i = 0x0000 ∧ s.pc = 0x0200 ∧ s.sp = 0 ∧
    (∀ k (h : k < 16), s.stack[k] = 0x0000) ∧ s.dt = 0x00 ∧ s.st = 0x00 ∧
    (∀ k, s.keyHeld k = false) ∧ (∀ x y, x < 64 → y < 32 → s.fb.cell x y = false) ∧
    s.redraw = false ∧ s.fault = none ∧ s.tone = false ∧ s.loaded = false ∧
    (∀ k (h : k < 80), s.readByte (p.fontBase.toNat + k) = p.fontGlyphs[k]) ∧
    (∀ a, a < p.fontBase.toNat ∨ p.fontBase.toNat + 80 ≤ a → s.readByte a = 0x00)

/-- RESET in any state, halted or not, gives the reset state of the same parameters; the random source
and the host's own list go on (R205, R240; D34, log 30). -/
def Obligations.ResetStrobeResets : Prop :=
  ∀ (s : State) (rest : List Strobe), s.strobes = .reset :: rest →
    step s = .next { State.resetWith s.cfg with drawIndex := s.drawIndex, strobes := rest }

/-- A core that was reset and not loaded latches InvalidInstruction of the word 0x0000 at 0x200 on its
first exec, wherever the font lies (R245, D18). -/
def Obligations.UnloadedCoreFaultsAtOnce : Prop :=
  ∀ p : Params, p.wellFormed = true →
    step (State.resetWith p) = .next { State.resetWith p with
      fault := some ⟨.invalidInstruction, 0x0000, 0x0200, 0⟩ }

/-! ### The invariant -/

/-- Every step, whatever strobe of the host it takes, keeps the invariant: legal parameters, canonical
memory, a PC that has not wrapped, return addresses a call can have pushed, no instruction executed
before a load, a fault latch that agrees with the state (R7, R25, R132, R203, R245; D3, D7, D25;
log 6, log 23). -/
def Obligations.StepKeepsTheInvariant : Prop :=
  ∀ s t : State, s.Inv → step s = .next t → t.Inv

/-- The reset state of every legal configuration meets the invariant (R240). -/
def Obligations.ResetMeetsTheInvariant : Prop :=
  ∀ p : Params, p.wellFormed = true → (State.resetWith p).Inv
end

