-- ==== Sys2Proof/Laws/Decode.lean ====
section
/-! SUPPORT. The fields of packed words, and bytes of words: what the round trips of decoding rest on
(30_encoding.md R71, R75). -/

namespace Sys2Proof

/-! ### The value of a packed word and of a field -/

/-- The value of a concatenation {a, b} (R9). -/
theorem append_toNat {m n : Nat} (a : BitVec m) (b : BitVec n) :
    (a ++ b).toNat = a.toNat * 2 ^ n + b.toNat := by
  rw [BitVec.toNat_append, Nat.shiftLeft_eq, Nat.mul_comm, ← Nat.two_pow_add_eq_or_of_lt b.isLt]

theorem packNNN_toNat (f : BitVec 4) (nnn : BitVec 12) :
    (packNNN f nnn).toNat = f.toNat * 4096 + nnn.toNat := append_toNat f nnn

theorem packXNN_toNat (f : BitVec 4) (x : Reg) (nn : Byte) :
    (packXNN f x nn).toNat = f.toNat * 4096 + x.val * 256 + nn.toNat := by
  have hx : (BitVec.ofFin x : BitVec 4).toNat = x.val := rfl
  have h := append_toNat (f ++ (BitVec.ofFin x : BitVec 4)) nn
  have h' := append_toNat f (BitVec.ofFin x : BitVec 4)
  rw [h', hx] at h
  rw [packXNN, h]
  omega

theorem packXYN_toNat (f : BitVec 4) (x y : Reg) (n : BitVec 4) :
    (packXYN f x y n).toNat = f.toNat * 4096 + x.val * 256 + y.val * 16 + n.toNat := by
  have hx : (BitVec.ofFin x : BitVec 4).toNat = x.val := rfl
  have hy : (BitVec.ofFin y : BitVec 4).toNat = y.val := rfl
  have h := append_toNat (f ++ (BitVec.ofFin x : BitVec 4) ++ (BitVec.ofFin y : BitVec 4)) n
  have h' := append_toNat (f ++ (BitVec.ofFin x : BitVec 4)) (BitVec.ofFin y : BitVec 4)
  have h'' := append_toNat f (BitVec.ofFin x : BitVec 4)
  rw [h', h'', hx, hy] at h
  rw [packXYN, h]
  omega

theorem family_toNat (w : Word) : (family w).toNat = w.toNat / 4096 := by
  have := w.isLt
  simp [family, BitVec.extractLsb'_toNat, Nat.shiftRight_eq_div_pow]
  omega

theorem fieldX_val (w : Word) : (fieldX w).val = w.toNat / 256 % 16 := by
  simp [fieldX, Nat.shiftRight_eq_div_pow]

theorem fieldY_val (w : Word) : (fieldY w).val = w.toNat / 16 % 16 := by
  simp [fieldY, Nat.shiftRight_eq_div_pow]

theorem fieldN_toNat (w : Word) : (fieldN w).toNat = w.toNat % 16 := by
  simp [fieldN, BitVec.extractLsb'_toNat]

theorem fieldNN_toNat (w : Word) : (fieldNN w).toNat = w.toNat % 256 := by
  simp [fieldNN, BitVec.extractLsb'_toNat]

theorem fieldNNN_toNat (w : Word) : (fieldNNN w).toNat = w.toNat % 4096 := by
  simp [fieldNNN, BitVec.extractLsb'_toNat]

/-! ### The fields of a packed word are what was packed -/

theorem family_packNNN (f : BitVec 4) (nnn : BitVec 12) : family (packNNN f nnn) = f := by
  have := nnn.isLt
  exact BitVec.eq_of_toNat_eq (by rw [family_toNat, packNNN_toNat]; omega)

theorem fieldNNN_packNNN (f : BitVec 4) (nnn : BitVec 12) : fieldNNN (packNNN f nnn) = nnn := by
  have := nnn.isLt
  exact BitVec.eq_of_toNat_eq (by rw [fieldNNN_toNat, packNNN_toNat]; omega)

theorem family_packXNN (f : BitVec 4) (x : Reg) (nn : Byte) : family (packXNN f x nn) = f := by
  have := nn.isLt; have := x.isLt
  exact BitVec.eq_of_toNat_eq (by rw [family_toNat, packXNN_toNat]; omega)

theorem fieldX_packXNN (f : BitVec 4) (x : Reg) (nn : Byte) : fieldX (packXNN f x nn) = x := by
  have := nn.isLt; have := x.isLt
  exact Fin.ext (by rw [fieldX_val, packXNN_toNat]; omega)

theorem fieldNN_packXNN (f : BitVec 4) (x : Reg) (nn : Byte) : fieldNN (packXNN f x nn) = nn := by
  have := nn.isLt; have := x.isLt
  exact BitVec.eq_of_toNat_eq (by rw [fieldNN_toNat, packXNN_toNat]; omega)

theorem family_packXYN (f : BitVec 4) (x y : Reg) (n : BitVec 4) : family (packXYN f x y n) = f := by
  have := n.isLt; have := x.isLt; have := y.isLt
  exact BitVec.eq_of_toNat_eq (by rw [family_toNat, packXYN_toNat]; omega)

theorem fieldX_packXYN (f : BitVec 4) (x y : Reg) (n : BitVec 4) : fieldX (packXYN f x y n) = x := by
  have := n.isLt; have := x.isLt; have := y.isLt
  exact Fin.ext (by rw [fieldX_val, packXYN_toNat]; omega)

theorem fieldY_packXYN (f : BitVec 4) (x y : Reg) (n : BitVec 4) : fieldY (packXYN f x y n) = y := by
  have := n.isLt; have := x.isLt; have := y.isLt
  exact Fin.ext (by rw [fieldY_val, packXYN_toNat]; omega)

theorem fieldN_packXYN (f : BitVec 4) (x y : Reg) (n : BitVec 4) : fieldN (packXYN f x y n) = n := by
  have := n.isLt; have := x.isLt; have := y.isLt
  exact BitVec.eq_of_toNat_eq (by rw [fieldN_toNat, packXYN_toNat]; omega)

/-! ### A word is packed from its fields -/

theorem packNNN_fields (w : Word) : packNNN (family w) (fieldNNN w) = w :=
  BitVec.eq_of_toNat_eq (by rw [packNNN_toNat, family_toNat, fieldNNN_toNat]; omega)

theorem packXNN_fields (w : Word) : packXNN (family w) (fieldX w) (fieldNN w) = w :=
  BitVec.eq_of_toNat_eq (by rw [packXNN_toNat, family_toNat, fieldX_val, fieldNN_toNat]; omega)

theorem packXYN_fields (w : Word) : packXYN (family w) (fieldX w) (fieldY w) (fieldN w) = w :=
  BitVec.eq_of_toNat_eq (by
    rw [packXYN_toNat, family_toNat, fieldX_val, fieldY_val, fieldN_toNat]; omega)

/-! ### Decode, family by family (R75) -/

/-- A word belongs to one of the sixteen families. -/
theorem family_cases (w : Word) :
    family w = 0x0 ∨ family w = 0x1 ∨ family w = 0x2 ∨ family w = 0x3 ∨ family w = 0x4 ∨
    family w = 0x5 ∨ family w = 0x6 ∨ family w = 0x7 ∨ family w = 0x8 ∨ family w = 0x9 ∨
    family w = 0xA ∨ family w = 0xB ∨ family w = 0xC ∨ family w = 0xD ∨ family w = 0xE ∨
    family w = 0xF := by
  generalize family w = f
  revert f
  decide

theorem decode_of_family0 {m : Fx0aMode} {w : Word} (h : family w = 0x0) :
    decode m w = decode0 w := by simp [decode, h]
theorem decode_of_family1 {m : Fx0aMode} {w : Word} (h : family w = 0x1) :
    decode m w = .ok (.jp (fieldNNN w)) := by simp [decode, h]
theorem decode_of_family2 {m : Fx0aMode} {w : Word} (h : family w = 0x2) :
    decode m w = .ok (.call (fieldNNN w)) := by simp [decode, h]
theorem decode_of_family3 {m : Fx0aMode} {w : Word} (h : family w = 0x3) :
    decode m w = .ok (.seImm (fieldX w) (fieldNN w)) := by simp [decode, h]
theorem decode_of_family4 {m : Fx0aMode} {w : Word} (h : family w = 0x4) :
    decode m w = .ok (.sneImm (fieldX w) (fieldNN w)) := by simp [decode, h]
theorem decode_of_family5 {m : Fx0aMode} {w : Word} (h : family w = 0x5) :
    decode m w = 
      if fieldN w = 0x0 then .ok (.seReg (fieldX w) (fieldY w)) else .error .nibble5 := by simp [decode, h]
theorem decode_of_family6 {m : Fx0aMode} {w : Word} (h : family w = 0x6) :
    decode m w = .ok (.ldImm (fieldX w) (fieldNN w)) := by simp [decode, h]
theorem decode_of_family7 {m : Fx0aMode} {w : Word} (h : family w = 0x7) :
    decode m w = .ok (.addImm (fieldX w) (fieldNN w)) := by simp [decode, h]
theorem decode_of_family8 {m : Fx0aMode} {w : Word} (h : family w = 0x8) :
    decode m w = decode8 (fieldX w) (fieldY w) (fieldN w) := by simp [decode, h]
theorem decode_of_family9 {m : Fx0aMode} {w : Word} (h : family w = 0x9) :
    decode m w = 
      if fieldN w = 0x0 then .ok (.sneReg (fieldX w) (fieldY w)) else .error .nibble9 := by simp [decode, h]
theorem decode_of_familyA {m : Fx0aMode} {w : Word} (h : family w = 0xA) :
    decode m w = .ok (.ldI (fieldNNN w)) := by simp [decode, h]
theorem decode_of_familyB {m : Fx0aMode} {w : Word} (h : family w = 0xB) :
    decode m w = .error .familyB := by simp [decode, h]
theorem decode_of_familyC {m : Fx0aMode} {w : Word} (h : family w = 0xC) :
    decode m w = .ok (.rnd (fieldX w) (fieldNN w)) := by simp [decode, h]
theorem decode_of_familyD {m : Fx0aMode} {w : Word} (h : family w = 0xD) :
    decode m w = 
      .ok (.drw (fieldX w) (fieldY w) (fieldN w)) := by simp [decode, h]
theorem decode_of_familyE {m : Fx0aMode} {w : Word} (h : family w = 0xE) :
    decode m w = decodeE (fieldX w) (fieldNN w) := by simp [decode, h]
theorem decode_of_familyF {m : Fx0aMode} {w : Word} (h : family w = 0xF) :
    decode m w = decodeF m (fieldX w) (fieldNN w) := by simp [decode, h]

/-! ### Bytes of a word -/

theorem wordOfBytes_toNat (hi lo : Byte) : (wordOfBytes hi lo).toNat = hi.toNat * 256 + lo.toNat :=
  append_toNat hi lo

@[simp] theorem wordOfBytes_high_low (w : Word) : wordOfBytes (highByte w) (lowByte w) = w := by
  refine BitVec.eq_of_toNat_eq ?_
  have := w.isLt
  have h : (highByte w).toNat = w.toNat / 256 % 256 := by
    simp [highByte, BitVec.extractLsb'_toNat, Nat.shiftRight_eq_div_pow]
  have l : (lowByte w).toNat = w.toNat % 256 := by simp [lowByte, BitVec.extractLsb'_toNat]
  rw [wordOfBytes_toNat, h, l]
  omega

end Sys2Proof
end

