-- ==== Sys2Proof/Laws/State.lean ====
section
/-! SUPPORT. One lemma per field per update: what each named operation does to each field of the state,
so that no later proof unfolds a record update. -/

namespace Sys2Proof.Machine

/-! ### `setV` -/

@[simp] theorem State.setV_mem (s : State) (x : Reg) (b : Byte) : (s.setV x b).mem = s.mem := rfl
@[simp] theorem State.setV_v (s : State) (x : Reg) (b : Byte) : (s.setV x b).v = s.v.set x.val b := rfl
@[simp] theorem State.setV_i (s : State) (x : Reg) (b : Byte) : (s.setV x b).i = s.i := rfl
@[simp] theorem State.setV_pc (s : State) (x : Reg) (b : Byte) : (s.setV x b).pc = s.pc := rfl
@[simp] theorem State.setV_sp (s : State) (x : Reg) (b : Byte) : (s.setV x b).sp = s.sp := rfl
@[simp] theorem State.setV_stack (s : State) (x : Reg) (b : Byte) : (s.setV x b).stack = s.stack := rfl
@[simp] theorem State.setV_dt (s : State) (x : Reg) (b : Byte) : (s.setV x b).dt = s.dt := rfl
@[simp] theorem State.setV_st (s : State) (x : Reg) (b : Byte) : (s.setV x b).st = s.st := rfl
@[simp] theorem State.setV_keys (s : State) (x : Reg) (b : Byte) : (s.setV x b).keys = s.keys := rfl
@[simp] theorem State.setV_fb (s : State) (x : Reg) (b : Byte) : (s.setV x b).fb = s.fb := rfl
@[simp] theorem State.setV_redraw (s : State) (x : Reg) (b : Byte) : (s.setV x b).redraw = s.redraw := rfl
@[simp] theorem State.setV_fault (s : State) (x : Reg) (b : Byte) : (s.setV x b).fault = s.fault := rfl
@[simp] theorem State.setV_tone (s : State) (x : Reg) (b : Byte) : (s.setV x b).tone = s.tone := rfl
@[simp] theorem State.setV_loaded (s : State) (x : Reg) (b : Byte) : (s.setV x b).loaded = s.loaded := rfl
@[simp] theorem State.setV_cfg (s : State) (x : Reg) (b : Byte) : (s.setV x b).cfg = s.cfg := rfl
@[simp] theorem State.setV_drawIndex (s : State) (x : Reg) (b : Byte) : (s.setV x b).drawIndex = s.drawIndex := rfl
@[simp] theorem State.setV_strobes (s : State) (x : Reg) (b : Byte) : (s.setV x b).strobes = s.strobes := rfl

/-! ### `setPc` -/

@[simp] theorem State.setPc_mem (s : State) (a : Word) : (s.setPc a).mem = s.mem := rfl
@[simp] theorem State.setPc_v (s : State) (a : Word) : (s.setPc a).v = s.v := rfl
@[simp] theorem State.setPc_i (s : State) (a : Word) : (s.setPc a).i = s.i := rfl
@[simp] theorem State.setPc_pc (s : State) (a : Word) : (s.setPc a).pc = a := rfl
@[simp] theorem State.setPc_sp (s : State) (a : Word) : (s.setPc a).sp = s.sp := rfl
@[simp] theorem State.setPc_stack (s : State) (a : Word) : (s.setPc a).stack = s.stack := rfl
@[simp] theorem State.setPc_dt (s : State) (a : Word) : (s.setPc a).dt = s.dt := rfl
@[simp] theorem State.setPc_st (s : State) (a : Word) : (s.setPc a).st = s.st := rfl
@[simp] theorem State.setPc_keys (s : State) (a : Word) : (s.setPc a).keys = s.keys := rfl
@[simp] theorem State.setPc_fb (s : State) (a : Word) : (s.setPc a).fb = s.fb := rfl
@[simp] theorem State.setPc_redraw (s : State) (a : Word) : (s.setPc a).redraw = s.redraw := rfl
@[simp] theorem State.setPc_fault (s : State) (a : Word) : (s.setPc a).fault = s.fault := rfl
@[simp] theorem State.setPc_tone (s : State) (a : Word) : (s.setPc a).tone = s.tone := rfl
@[simp] theorem State.setPc_loaded (s : State) (a : Word) : (s.setPc a).loaded = s.loaded := rfl
@[simp] theorem State.setPc_cfg (s : State) (a : Word) : (s.setPc a).cfg = s.cfg := rfl
@[simp] theorem State.setPc_drawIndex (s : State) (a : Word) : (s.setPc a).drawIndex = s.drawIndex := rfl
@[simp] theorem State.setPc_strobes (s : State) (a : Word) : (s.setPc a).strobes = s.strobes := rfl

/-! ### `advance` -/

@[simp] theorem State.advance_mem (s : State) : (s.advance).mem = s.mem := rfl
@[simp] theorem State.advance_v (s : State) : (s.advance).v = s.v := rfl
@[simp] theorem State.advance_i (s : State) : (s.advance).i = s.i := rfl
@[simp] theorem State.advance_pc (s : State) : (s.advance).pc = s.pc + 2 := rfl
@[simp] theorem State.advance_sp (s : State) : (s.advance).sp = s.sp := rfl
@[simp] theorem State.advance_stack (s : State) : (s.advance).stack = s.stack := rfl
@[simp] theorem State.advance_dt (s : State) : (s.advance).dt = s.dt := rfl
@[simp] theorem State.advance_st (s : State) : (s.advance).st = s.st := rfl
@[simp] theorem State.advance_keys (s : State) : (s.advance).keys = s.keys := rfl
@[simp] theorem State.advance_fb (s : State) : (s.advance).fb = s.fb := rfl
@[simp] theorem State.advance_redraw (s : State) : (s.advance).redraw = s.redraw := rfl
@[simp] theorem State.advance_fault (s : State) : (s.advance).fault = s.fault := rfl
@[simp] theorem State.advance_tone (s : State) : (s.advance).tone = s.tone := rfl
@[simp] theorem State.advance_loaded (s : State) : (s.advance).loaded = s.loaded := rfl
@[simp] theorem State.advance_cfg (s : State) : (s.advance).cfg = s.cfg := rfl
@[simp] theorem State.advance_drawIndex (s : State) : (s.advance).drawIndex = s.drawIndex := rfl
@[simp] theorem State.advance_strobes (s : State) : (s.advance).strobes = s.strobes := rfl

/-! ### `skip` -/

@[simp] theorem State.skip_mem (s : State) : (s.skip).mem = s.mem := rfl
@[simp] theorem State.skip_v (s : State) : (s.skip).v = s.v := rfl
@[simp] theorem State.skip_i (s : State) : (s.skip).i = s.i := rfl
@[simp] theorem State.skip_pc (s : State) : (s.skip).pc = s.pc + 4 := rfl
@[simp] theorem State.skip_sp (s : State) : (s.skip).sp = s.sp := rfl
@[simp] theorem State.skip_stack (s : State) : (s.skip).stack = s.stack := rfl
@[simp] theorem State.skip_dt (s : State) : (s.skip).dt = s.dt := rfl
@[simp] theorem State.skip_st (s : State) : (s.skip).st = s.st := rfl
@[simp] theorem State.skip_keys (s : State) : (s.skip).keys = s.keys := rfl
@[simp] theorem State.skip_fb (s : State) : (s.skip).fb = s.fb := rfl
@[simp] theorem State.skip_redraw (s : State) : (s.skip).redraw = s.redraw := rfl
@[simp] theorem State.skip_fault (s : State) : (s.skip).fault = s.fault := rfl
@[simp] theorem State.skip_tone (s : State) : (s.skip).tone = s.tone := rfl
@[simp] theorem State.skip_loaded (s : State) : (s.skip).loaded = s.loaded := rfl
@[simp] theorem State.skip_cfg (s : State) : (s.skip).cfg = s.cfg := rfl
@[simp] theorem State.skip_drawIndex (s : State) : (s.skip).drawIndex = s.drawIndex := rfl
@[simp] theorem State.skip_strobes (s : State) : (s.skip).strobes = s.strobes := rfl

/-! ### `skipIf` -/

@[simp] theorem State.skipIf_mem (s : State) (c : Bool) : (s.skipIf c).mem = s.mem := by cases c <;> rfl
@[simp] theorem State.skipIf_v (s : State) (c : Bool) : (s.skipIf c).v = s.v := by cases c <;> rfl
@[simp] theorem State.skipIf_i (s : State) (c : Bool) : (s.skipIf c).i = s.i := by cases c <;> rfl
@[simp] theorem State.skipIf_pc (s : State) (c : Bool) :
    (s.skipIf c).pc = s.pc + (if c then 4 else 2) := by cases c <;> rfl
@[simp] theorem State.skipIf_sp (s : State) (c : Bool) : (s.skipIf c).sp = s.sp := by cases c <;> rfl
@[simp] theorem State.skipIf_stack (s : State) (c : Bool) : (s.skipIf c).stack = s.stack := by cases c <;> rfl
@[simp] theorem State.skipIf_dt (s : State) (c : Bool) : (s.skipIf c).dt = s.dt := by cases c <;> rfl
@[simp] theorem State.skipIf_st (s : State) (c : Bool) : (s.skipIf c).st = s.st := by cases c <;> rfl
@[simp] theorem State.skipIf_keys (s : State) (c : Bool) : (s.skipIf c).keys = s.keys := by cases c <;> rfl
@[simp] theorem State.skipIf_fb (s : State) (c : Bool) : (s.skipIf c).fb = s.fb := by cases c <;> rfl
@[simp] theorem State.skipIf_redraw (s : State) (c : Bool) : (s.skipIf c).redraw = s.redraw := by cases c <;> rfl
@[simp] theorem State.skipIf_fault (s : State) (c : Bool) : (s.skipIf c).fault = s.fault := by cases c <;> rfl
@[simp] theorem State.skipIf_tone (s : State) (c : Bool) : (s.skipIf c).tone = s.tone := by cases c <;> rfl
@[simp] theorem State.skipIf_loaded (s : State) (c : Bool) : (s.skipIf c).loaded = s.loaded := by cases c <;> rfl
@[simp] theorem State.skipIf_cfg (s : State) (c : Bool) : (s.skipIf c).cfg = s.cfg := by cases c <;> rfl
@[simp] theorem State.skipIf_drawIndex (s : State) (c : Bool) : (s.skipIf c).drawIndex = s.drawIndex := by cases c <;> rfl
@[simp] theorem State.skipIf_strobes (s : State) (c : Bool) : (s.skipIf c).strobes = s.strobes := by cases c <;> rfl

/-! ### `raise` -/

@[simp] theorem State.raise_mem (s : State) (k : FaultKind) (w : Word) (a : Nat) : (s.raise k w a).mem = s.mem := rfl
@[simp] theorem State.raise_v (s : State) (k : FaultKind) (w : Word) (a : Nat) : (s.raise k w a).v = s.v := rfl
@[simp] theorem State.raise_i (s : State) (k : FaultKind) (w : Word) (a : Nat) : (s.raise k w a).i = s.i := rfl
@[simp] theorem State.raise_pc (s : State) (k : FaultKind) (w : Word) (a : Nat) : (s.raise k w a).pc = s.pc := rfl
@[simp] theorem State.raise_sp (s : State) (k : FaultKind) (w : Word) (a : Nat) : (s.raise k w a).sp = s.sp := rfl
@[simp] theorem State.raise_stack (s : State) (k : FaultKind) (w : Word) (a : Nat) : (s.raise k w a).stack = s.stack := rfl
@[simp] theorem State.raise_dt (s : State) (k : FaultKind) (w : Word) (a : Nat) : (s.raise k w a).dt = s.dt := rfl
@[simp] theorem State.raise_st (s : State) (k : FaultKind) (w : Word) (a : Nat) : (s.raise k w a).st = s.st := rfl
@[simp] theorem State.raise_keys (s : State) (k : FaultKind) (w : Word) (a : Nat) : (s.raise k w a).keys = s.keys := rfl
@[simp] theorem State.raise_fb (s : State) (k : FaultKind) (w : Word) (a : Nat) : (s.raise k w a).fb = s.fb := rfl
@[simp] theorem State.raise_redraw (s : State) (k : FaultKind) (w : Word) (a : Nat) : (s.raise k w a).redraw = s.redraw := rfl
@[simp] theorem State.raise_fault (s : State) (k : FaultKind) (w : Word) (a : Nat) : (s.raise k w a).fault = 
    some (s.fault.getD ⟨k, w, s.pc, BitVec.ofNat 16 a⟩) := rfl
@[simp] theorem State.raise_tone (s : State) (k : FaultKind) (w : Word) (a : Nat) : (s.raise k w a).tone = s.tone := rfl
@[simp] theorem State.raise_loaded (s : State) (k : FaultKind) (w : Word) (a : Nat) : (s.raise k w a).loaded = s.loaded := rfl
@[simp] theorem State.raise_cfg (s : State) (k : FaultKind) (w : Word) (a : Nat) : (s.raise k w a).cfg = s.cfg := rfl
@[simp] theorem State.raise_drawIndex (s : State) (k : FaultKind) (w : Word) (a : Nat) : (s.raise k w a).drawIndex = s.drawIndex := rfl
@[simp] theorem State.raise_strobes (s : State) (k : FaultKind) (w : Word) (a : Nat) : (s.raise k w a).strobes = s.strobes := rfl

/-! ### `writeByte` -/

@[simp] theorem State.writeByte_mem (s : State) (a : Nat) (b : Byte) : (s.writeByte a b).mem = 
    Memory.put s.mem a (if b = resetByte s.cfg a then none else some b) := rfl
@[simp] theorem State.writeByte_v (s : State) (a : Nat) (b : Byte) : (s.writeByte a b).v = s.v := rfl
@[simp] theorem State.writeByte_i (s : State) (a : Nat) (b : Byte) : (s.writeByte a b).i = s.i := rfl
@[simp] theorem State.writeByte_pc (s : State) (a : Nat) (b : Byte) : (s.writeByte a b).pc = s.pc := rfl
@[simp] theorem State.writeByte_sp (s : State) (a : Nat) (b : Byte) : (s.writeByte a b).sp = s.sp := rfl
@[simp] theorem State.writeByte_stack (s : State) (a : Nat) (b : Byte) : (s.writeByte a b).stack = s.stack := rfl
@[simp] theorem State.writeByte_dt (s : State) (a : Nat) (b : Byte) : (s.writeByte a b).dt = s.dt := rfl
@[simp] theorem State.writeByte_st (s : State) (a : Nat) (b : Byte) : (s.writeByte a b).st = s.st := rfl
@[simp] theorem State.writeByte_keys (s : State) (a : Nat) (b : Byte) : (s.writeByte a b).keys = s.keys := rfl
@[simp] theorem State.writeByte_fb (s : State) (a : Nat) (b : Byte) : (s.writeByte a b).fb = s.fb := rfl
@[simp] theorem State.writeByte_redraw (s : State) (a : Nat) (b : Byte) : (s.writeByte a b).redraw = s.redraw := rfl
@[simp] theorem State.writeByte_fault (s : State) (a : Nat) (b : Byte) : (s.writeByte a b).fault = s.fault := rfl
@[simp] theorem State.writeByte_tone (s : State) (a : Nat) (b : Byte) : (s.writeByte a b).tone = s.tone := rfl
@[simp] theorem State.writeByte_loaded (s : State) (a : Nat) (b : Byte) : (s.writeByte a b).loaded = s.loaded := rfl
@[simp] theorem State.writeByte_cfg (s : State) (a : Nat) (b : Byte) : (s.writeByte a b).cfg = s.cfg := rfl
@[simp] theorem State.writeByte_drawIndex (s : State) (a : Nat) (b : Byte) : (s.writeByte a b).drawIndex = s.drawIndex := rfl
@[simp] theorem State.writeByte_strobes (s : State) (a : Nat) (b : Byte) : (s.writeByte a b).strobes = s.strobes := rfl

/-! ### `storeBytes`: memory alone -/

@[simp] theorem State.storeBytes_v (bs : List Byte) (s : State) (a : Nat) :
    (s.storeBytes a bs).v = s.v := by
  induction bs generalizing s a with
  | nil => rfl
  | cons b bs ih => simp [State.storeBytes, ih]
@[simp] theorem State.storeBytes_i (bs : List Byte) (s : State) (a : Nat) :
    (s.storeBytes a bs).i = s.i := by
  induction bs generalizing s a with
  | nil => rfl
  | cons b bs ih => simp [State.storeBytes, ih]
@[simp] theorem State.storeBytes_pc (bs : List Byte) (s : State) (a : Nat) :
    (s.storeBytes a bs).pc = s.pc := by
  induction bs generalizing s a with
  | nil => rfl
  | cons b bs ih => simp [State.storeBytes, ih]
@[simp] theorem State.storeBytes_sp (bs : List Byte) (s : State) (a : Nat) :
    (s.storeBytes a bs).sp = s.sp := by
  induction bs generalizing s a with
  | nil => rfl
  | cons b bs ih => simp [State.storeBytes, ih]
@[simp] theorem State.storeBytes_stack (bs : List Byte) (s : State) (a : Nat) :
    (s.storeBytes a bs).stack = s.stack := by
  induction bs generalizing s a with
  | nil => rfl
  | cons b bs ih => simp [State.storeBytes, ih]
@[simp] theorem State.storeBytes_dt (bs : List Byte) (s : State) (a : Nat) :
    (s.storeBytes a bs).dt = s.dt := by
  induction bs generalizing s a with
  | nil => rfl
  | cons b bs ih => simp [State.storeBytes, ih]
@[simp] theorem State.storeBytes_st (bs : List Byte) (s : State) (a : Nat) :
    (s.storeBytes a bs).st = s.st := by
  induction bs generalizing s a with
  | nil => rfl
  | cons b bs ih => simp [State.storeBytes, ih]
@[simp] theorem State.storeBytes_keys (bs : List Byte) (s : State) (a : Nat) :
    (s.storeBytes a bs).keys = s.keys := by
  induction bs generalizing s a with
  | nil => rfl
  | cons b bs ih => simp [State.storeBytes, ih]
@[simp] theorem State.storeBytes_fb (bs : List Byte) (s : State) (a : Nat) :
    (s.storeBytes a bs).fb = s.fb := by
  induction bs generalizing s a with
  | nil => rfl
  | cons b bs ih => simp [State.storeBytes, ih]
@[simp] theorem State.storeBytes_redraw (bs : List Byte) (s : State) (a : Nat) :
    (s.storeBytes a bs).redraw = s.redraw := by
  induction bs generalizing s a with
  | nil => rfl
  | cons b bs ih => simp [State.storeBytes, ih]
@[simp] theorem State.storeBytes_fault (bs : List Byte) (s : State) (a : Nat) :
    (s.storeBytes a bs).fault = s.fault := by
  induction bs generalizing s a with
  | nil => rfl
  | cons b bs ih => simp [State.storeBytes, ih]
@[simp] theorem State.storeBytes_tone (bs : List Byte) (s : State) (a : Nat) :
    (s.storeBytes a bs).tone = s.tone := by
  induction bs generalizing s a with
  | nil => rfl
  | cons b bs ih => simp [State.storeBytes, ih]
@[simp] theorem State.storeBytes_loaded (bs : List Byte) (s : State) (a : Nat) :
    (s.storeBytes a bs).loaded = s.loaded := by
  induction bs generalizing s a with
  | nil => rfl
  | cons b bs ih => simp [State.storeBytes, ih]
@[simp] theorem State.storeBytes_cfg (bs : List Byte) (s : State) (a : Nat) :
    (s.storeBytes a bs).cfg = s.cfg := by
  induction bs generalizing s a with
  | nil => rfl
  | cons b bs ih => simp [State.storeBytes, ih]
@[simp] theorem State.storeBytes_drawIndex (bs : List Byte) (s : State) (a : Nat) :
    (s.storeBytes a bs).drawIndex = s.drawIndex := by
  induction bs generalizing s a with
  | nil => rfl
  | cons b bs ih => simp [State.storeBytes, ih]
@[simp] theorem State.storeBytes_strobes (bs : List Byte) (s : State) (a : Nat) :
    (s.storeBytes a bs).strobes = s.strobes := by
  induction bs generalizing s a with
  | nil => rfl
  | cons b bs ih => simp [State.storeBytes, ih]

/-! ### `loadRegs`: the general registers alone -/

@[simp] theorem State.loadRegs_mem (n : Nat) (s : State) (a : Nat) :
    (s.loadRegs a n).mem = s.mem := by
  induction n with
  | zero => rfl
  | succ k ih => simp only [State.loadRegs]; split <;> simp [ih]
@[simp] theorem State.loadRegs_i (n : Nat) (s : State) (a : Nat) :
    (s.loadRegs a n).i = s.i := by
  induction n with
  | zero => rfl
  | succ k ih => simp only [State.loadRegs]; split <;> simp [ih]
@[simp] theorem State.loadRegs_pc (n : Nat) (s : State) (a : Nat) :
    (s.loadRegs a n).pc = s.pc := by
  induction n with
  | zero => rfl
  | succ k ih => simp only [State.loadRegs]; split <;> simp [ih]
@[simp] theorem State.loadRegs_sp (n : Nat) (s : State) (a : Nat) :
    (s.loadRegs a n).sp = s.sp := by
  induction n with
  | zero => rfl
  | succ k ih => simp only [State.loadRegs]; split <;> simp [ih]
@[simp] theorem State.loadRegs_stack (n : Nat) (s : State) (a : Nat) :
    (s.loadRegs a n).stack = s.stack := by
  induction n with
  | zero => rfl
  | succ k ih => simp only [State.loadRegs]; split <;> simp [ih]
@[simp] theorem State.loadRegs_dt (n : Nat) (s : State) (a : Nat) :
    (s.loadRegs a n).dt = s.dt := by
  induction n with
  | zero => rfl
  | succ k ih => simp only [State.loadRegs]; split <;> simp [ih]
@[simp] theorem State.loadRegs_st (n : Nat) (s : State) (a : Nat) :
    (s.loadRegs a n).st = s.st := by
  induction n with
  | zero => rfl
  | succ k ih => simp only [State.loadRegs]; split <;> simp [ih]
@[simp] theorem State.loadRegs_keys (n : Nat) (s : State) (a : Nat) :
    (s.loadRegs a n).keys = s.keys := by
  induction n with
  | zero => rfl
  | succ k ih => simp only [State.loadRegs]; split <;> simp [ih]
@[simp] theorem State.loadRegs_fb (n : Nat) (s : State) (a : Nat) :
    (s.loadRegs a n).fb = s.fb := by
  induction n with
  | zero => rfl
  | succ k ih => simp only [State.loadRegs]; split <;> simp [ih]
@[simp] theorem State.loadRegs_redraw (n : Nat) (s : State) (a : Nat) :
    (s.loadRegs a n).redraw = s.redraw := by
  induction n with
  | zero => rfl
  | succ k ih => simp only [State.loadRegs]; split <;> simp [ih]
@[simp] theorem State.loadRegs_fault (n : Nat) (s : State) (a : Nat) :
    (s.loadRegs a n).fault = s.fault := by
  induction n with
  | zero => rfl
  | succ k ih => simp only [State.loadRegs]; split <;> simp [ih]
@[simp] theorem State.loadRegs_tone (n : Nat) (s : State) (a : Nat) :
    (s.loadRegs a n).tone = s.tone := by
  induction n with
  | zero => rfl
  | succ k ih => simp only [State.loadRegs]; split <;> simp [ih]
@[simp] theorem State.loadRegs_loaded (n : Nat) (s : State) (a : Nat) :
    (s.loadRegs a n).loaded = s.loaded := by
  induction n with
  | zero => rfl
  | succ k ih => simp only [State.loadRegs]; split <;> simp [ih]
@[simp] theorem State.loadRegs_cfg (n : Nat) (s : State) (a : Nat) :
    (s.loadRegs a n).cfg = s.cfg := by
  induction n with
  | zero => rfl
  | succ k ih => simp only [State.loadRegs]; split <;> simp [ih]
@[simp] theorem State.loadRegs_drawIndex (n : Nat) (s : State) (a : Nat) :
    (s.loadRegs a n).drawIndex = s.drawIndex := by
  induction n with
  | zero => rfl
  | succ k ih => simp only [State.loadRegs]; split <;> simp [ih]
@[simp] theorem State.loadRegs_strobes (n : Nat) (s : State) (a : Nat) :
    (s.loadRegs a n).strobes = s.strobes := by
  induction n with
  | zero => rfl
  | succ k ih => simp only [State.loadRegs]; split <;> simp [ih]

/-! ### `bumpIndex`: I alone -/

@[simp] theorem State.bumpIndex_mem (s : State) (x : Reg) :
    (s.bumpIndex x).mem = s.mem := by simp only [State.bumpIndex]; split <;> rfl
@[simp] theorem State.bumpIndex_v (s : State) (x : Reg) :
    (s.bumpIndex x).v = s.v := by simp only [State.bumpIndex]; split <;> rfl
@[simp] theorem State.bumpIndex_i (s : State) (x : Reg) :
    (s.bumpIndex x).i = if s.cfg.ldstIncr then s.i + BitVec.ofNat 16 (x.val + 1) else s.i := by
  simp only [State.bumpIndex]; split <;> rfl
@[simp] theorem State.bumpIndex_pc (s : State) (x : Reg) :
    (s.bumpIndex x).pc = s.pc := by simp only [State.bumpIndex]; split <;> rfl
@[simp] theorem State.bumpIndex_sp (s : State) (x : Reg) :
    (s.bumpIndex x).sp = s.sp := by simp only [State.bumpIndex]; split <;> rfl
@[simp] theorem State.bumpIndex_stack (s : State) (x : Reg) :
    (s.bumpIndex x).stack = s.stack := by simp only [State.bumpIndex]; split <;> rfl
@[simp] theorem State.bumpIndex_dt (s : State) (x : Reg) :
    (s.bumpIndex x).dt = s.dt := by simp only [State.bumpIndex]; split <;> rfl
@[simp] theorem State.bumpIndex_st (s : State) (x : Reg) :
    (s.bumpIndex x).st = s.st := by simp only [State.bumpIndex]; split <;> rfl
@[simp] theorem State.bumpIndex_keys (s : State) (x : Reg) :
    (s.bumpIndex x).keys = s.keys := by simp only [State.bumpIndex]; split <;> rfl
@[simp] theorem State.bumpIndex_fb (s : State) (x : Reg) :
    (s.bumpIndex x).fb = s.fb := by simp only [State.bumpIndex]; split <;> rfl
@[simp] theorem State.bumpIndex_redraw (s : State) (x : Reg) :
    (s.bumpIndex x).redraw = s.redraw := by simp only [State.bumpIndex]; split <;> rfl
@[simp] theorem State.bumpIndex_fault (s : State) (x : Reg) :
    (s.bumpIndex x).fault = s.fault := by simp only [State.bumpIndex]; split <;> rfl
@[simp] theorem State.bumpIndex_tone (s : State) (x : Reg) :
    (s.bumpIndex x).tone = s.tone := by simp only [State.bumpIndex]; split <;> rfl
@[simp] theorem State.bumpIndex_loaded (s : State) (x : Reg) :
    (s.bumpIndex x).loaded = s.loaded := by simp only [State.bumpIndex]; split <;> rfl
@[simp] theorem State.bumpIndex_cfg (s : State) (x : Reg) :
    (s.bumpIndex x).cfg = s.cfg := by simp only [State.bumpIndex]; split <;> rfl
@[simp] theorem State.bumpIndex_drawIndex (s : State) (x : Reg) :
    (s.bumpIndex x).drawIndex = s.drawIndex := by simp only [State.bumpIndex]; split <;> rfl
@[simp] theorem State.bumpIndex_strobes (s : State) (x : Reg) :
    (s.bumpIndex x).strobes = s.strobes := by simp only [State.bumpIndex]; split <;> rfl

/-! ### `writeFlagged`: the general registers alone -/

@[simp] theorem State.writeFlagged_mem (s : State) (x : Reg) (b : Byte) (g : State → Byte) :
    (s.writeFlagged x b g).mem = s.mem := by simp only [State.writeFlagged]; split <;> rfl
@[simp] theorem State.writeFlagged_i (s : State) (x : Reg) (b : Byte) (g : State → Byte) :
    (s.writeFlagged x b g).i = s.i := by simp only [State.writeFlagged]; split <;> rfl
@[simp] theorem State.writeFlagged_pc (s : State) (x : Reg) (b : Byte) (g : State → Byte) :
    (s.writeFlagged x b g).pc = s.pc := by simp only [State.writeFlagged]; split <;> rfl
@[simp] theorem State.writeFlagged_sp (s : State) (x : Reg) (b : Byte) (g : State → Byte) :
    (s.writeFlagged x b g).sp = s.sp := by simp only [State.writeFlagged]; split <;> rfl
@[simp] theorem State.writeFlagged_stack (s : State) (x : Reg) (b : Byte) (g : State → Byte) :
    (s.writeFlagged x b g).stack = s.stack := by simp only [State.writeFlagged]; split <;> rfl
@[simp] theorem State.writeFlagged_dt (s : State) (x : Reg) (b : Byte) (g : State → Byte) :
    (s.writeFlagged x b g).dt = s.dt := by simp only [State.writeFlagged]; split <;> rfl
@[simp] theorem State.writeFlagged_st (s : State) (x : Reg) (b : Byte) (g : State → Byte) :
    (s.writeFlagged x b g).st = s.st := by simp only [State.writeFlagged]; split <;> rfl
@[simp] theorem State.writeFlagged_keys (s : State) (x : Reg) (b : Byte) (g : State → Byte) :
    (s.writeFlagged x b g).keys = s.keys := by simp only [State.writeFlagged]; split <;> rfl
@[simp] theorem State.writeFlagged_fb (s : State) (x : Reg) (b : Byte) (g : State → Byte) :
    (s.writeFlagged x b g).fb = s.fb := by simp only [State.writeFlagged]; split <;> rfl
@[simp] theorem State.writeFlagged_redraw (s : State) (x : Reg) (b : Byte) (g : State → Byte) :
    (s.writeFlagged x b g).redraw = s.redraw := by simp only [State.writeFlagged]; split <;> rfl
@[simp] theorem State.writeFlagged_fault (s : State) (x : Reg) (b : Byte) (g : State → Byte) :
    (s.writeFlagged x b g).fault = s.fault := by simp only [State.writeFlagged]; split <;> rfl
@[simp] theorem State.writeFlagged_tone (s : State) (x : Reg) (b : Byte) (g : State → Byte) :
    (s.writeFlagged x b g).tone = s.tone := by simp only [State.writeFlagged]; split <;> rfl
@[simp] theorem State.writeFlagged_loaded (s : State) (x : Reg) (b : Byte) (g : State → Byte) :
    (s.writeFlagged x b g).loaded = s.loaded := by simp only [State.writeFlagged]; split <;> rfl
@[simp] theorem State.writeFlagged_cfg (s : State) (x : Reg) (b : Byte) (g : State → Byte) :
    (s.writeFlagged x b g).cfg = s.cfg := by simp only [State.writeFlagged]; split <;> rfl
@[simp] theorem State.writeFlagged_drawIndex (s : State) (x : Reg) (b : Byte) (g : State → Byte) :
    (s.writeFlagged x b g).drawIndex = s.drawIndex := by simp only [State.writeFlagged]; split <;> rfl
@[simp] theorem State.writeFlagged_strobes (s : State) (x : Reg) (b : Byte) (g : State → Byte) :
    (s.writeFlagged x b g).strobes = s.strobes := by simp only [State.writeFlagged]; split <;> rfl

/-! ### The operations that write one or two fields, as record updates -/

theorem State.eq_of_fields {s t : State} (h1 : s.mem = t.mem) (h2 : s.v = t.v) (h3 : s.i = t.i)
    (h4 : s.pc = t.pc) (h5 : s.sp = t.sp) (h6 : s.stack = t.stack) (h7 : s.dt = t.dt)
    (h8 : s.st = t.st) (h9 : s.keys = t.keys) (h10 : s.fb = t.fb) (h11 : s.redraw = t.redraw)
    (h12 : s.fault = t.fault) (h13 : s.tone = t.tone) (h14 : s.loaded = t.loaded)
    (h15 : s.cfg = t.cfg) (h16 : s.drawIndex = t.drawIndex) (h17 : s.strobes = t.strobes) : s = t := by
  cases s
  cases t
  simp_all

/-- Storing bytes writes memory and nothing else. -/
theorem State.storeBytes_eq (s : State) (a : Nat) (bs : List Byte) :
    s.storeBytes a bs = { s with mem := (s.storeBytes a bs).mem } := by
  apply State.eq_of_fields <;> simp

/-- A register load writes the general registers and nothing else. -/
theorem State.loadRegs_eq (s : State) (base n : Nat) :
    s.loadRegs base n = { s with v := (s.loadRegs base n).v } := by
  apply State.eq_of_fields <;> simp

/-- The increment of a register transfer writes I and nothing else (R166). -/
theorem State.bumpIndex_eq (s : State) (x : Reg) :
    s.bumpIndex x = { s with i := (s.bumpIndex x).i } := by
  apply State.eq_of_fields <;> simp

/-- A flagged result writes the general registers and nothing else (R101). -/
theorem State.writeFlagged_eq (s : State) (x : Reg) (f : Byte) (g : State → Byte) :
    s.writeFlagged x f g = { s with v := (s.writeFlagged x f g).v } := by
  apply State.eq_of_fields <;> simp

/-- A skip writes PC and nothing else (R81). -/
theorem State.skipIf_eq (s : State) (c : Bool) :
    s.skipIf c = { s with pc := if c then s.pc + 4 else s.pc + 2 } := by
  cases c <;> rfl

end Sys2Proof.Machine
end

