-- ==== Sys2Proof/Laws/Display.lean ====
section
/-! SUPPORT. Drawing, said once: a sprite toggles exactly the cells its set bits fall on, each at most
once, and reports whether one of them was 1 (42_display.md R151, R152). -/

namespace Sys2Proof.Machine

/-! ### Cells -/

/-- One cell toggled, every other cell as before. -/
theorem FrameBuffer.cell_toggle (fb : FrameBuffer) {x y : Nat} (hx : x < 64) (hy : y < 32) (cx cy : Nat) :
    (fb.toggle x y).cell cx cy = (fb.cell cx cy ^^ decide (cx = x ∧ cy = y)) := by
  unfold FrameBuffer.toggle FrameBuffer.cell
  rw [dif_pos hy]
  by_cases h : cy = y
  · subst h
    simp only [Vector.getElem?_set_self hy, Option.getD_some, BitVec.getLsbD_xor, hy,
      Vector.getElem?_eq_getElem, BitVec.getLsbD_twoPow, and_true]
    congr 1
    by_cases hc : cx = x
    · subst hc; simp [hx]
    · have : ¬ x = cx := fun h => hc h.symm
      simp [hc, this]
  · rw [Vector.getElem?_set_ne hy (fun h' => h h'.symm)]
    simp [h]

@[simp] theorem FrameBuffer.cell_clear (x y : Nat) : FrameBuffer.clear.cell x y = false := by
  unfold FrameBuffer.cell FrameBuffer.clear
  by_cases h : y < 32
  · simp [Vector.getElem?_eq_getElem h]
  · simp [Vector.getElem?_eq_none (Nat.le_of_not_lt h)]

/-- Two frame buffers with the same cells are the same. -/
theorem FrameBuffer.ext_cells {a b : FrameBuffer}
    (h : ∀ x y, x < 64 → y < 32 → a.cell x y = b.cell x y) : a = b := by
  refine Vector.ext fun y hy => BitVec.eq_of_getLsbD_eq fun x hx => ?_
  have := h x y hx hy
  simpa [FrameBuffer.cell, Vector.getElem?_eq_getElem hy] using this

/-! ### Toggling a list of cells -/

/-- Toggle the cells of a list, one after another, reporting whether one of them was 1. -/
def toggleAll (cells : List (Nat × Nat)) (acc : FrameBuffer × Bool) : FrameBuffer × Bool :=
  cells.foldl (fun acc c => (acc.1.toggle c.1 c.2, acc.2 || acc.1.cell c.1 c.2)) acc

/-- When no cell is listed twice, the listed cells are flipped, the others kept, and a collision is
reported exactly when a listed cell was 1. -/
theorem toggleAll_spec {cells : List (Nat × Nat)} (hnd : cells.Nodup)
    (hr : ∀ c ∈ cells, c.1 < 64 ∧ c.2 < 32) (acc : FrameBuffer × Bool) :
    (∀ x y, (toggleAll cells acc).1.cell x y = (acc.1.cell x y ^^ decide ((x, y) ∈ cells))) ∧
    (toggleAll cells acc).2 = (acc.2 || cells.any fun c => acc.1.cell c.1 c.2) := by
  induction cells generalizing acc with
  | nil => simp [toggleAll]
  | cons c cs ih =>
    obtain ⟨hx, hy⟩ := hr c (by simp)
    rw [List.nodup_cons] at hnd
    obtain ⟨h1, h2⟩ := ih hnd.2 (fun d hd => hr d (by simp [hd]))
      (acc.1.toggle c.1 c.2, acc.2 || acc.1.cell c.1 c.2)
    constructor
    · intro x y
      have : toggleAll (c :: cs) acc
        = toggleAll cs (acc.1.toggle c.1 c.2, acc.2 || acc.1.cell c.1 c.2) := rfl
      rw [this, h1, FrameBuffer.cell_toggle _ hx hy]
      by_cases hc : (x, y) = c
      · subst hc
        simp [hnd.1]
      · have : ¬ (x = c.1 ∧ y = c.2) := fun h => hc (Prod.ext h.1 h.2)
        simp [this, hc]
    · have : toggleAll (c :: cs) acc
        = toggleAll cs (acc.1.toggle c.1 c.2, acc.2 || acc.1.cell c.1 c.2) := rfl
      rw [this, h2, List.any_cons, Bool.or_assoc]
      congr 2
      rw [Bool.eq_iff_iff]
      simp only [List.any_eq_true]
      refine exists_congr fun d => and_congr_right fun hd => ?_
      have hne : ¬ (d.1 = c.1 ∧ d.2 = c.2) := fun h => hnd.1 (by rw [← Prod.ext h.1 h.2]; exact hd)
      rw [FrameBuffer.cell_toggle _ hx hy]
      simp [hne]

/-! ### The cells of a sprite -/

/-- The cells that the set bits of a sprite's rows fall on, rows from `r` on, in drawing order. -/
def spriteCells (ox oy : Nat) : Nat → List Byte → List (Nat × Nat)
  | _, [] => []
  | r, row :: rows =>
    ((List.range 8).filter fun b => row.getLsbD (7 - b)).map (fun b => ((ox + b) % 64, (oy + r) % 32))
      ++ spriteCells ox oy (r + 1) rows

/-- Drawing is toggling the sprite's cells in order. -/
theorem drawRows_eq_toggleAll (ox oy r : Nat) (rows : List Byte) (acc : FrameBuffer × Bool) :
    drawRows ox oy r rows acc = toggleAll (spriteCells ox oy r rows) acc := by
  induction rows generalizing r acc with
  | nil => rfl
  | cons row rows ih =>
    simp only [drawRows, ih, spriteCells, toggleAll, List.foldl_append, List.foldl_map, drawRow]
    congr 1
    rw [List.foldl_filter]
    rfl

theorem mem_spriteCells {ox oy r : Nat} {rows : List Byte} {c : Nat × Nat} :
    c ∈ spriteCells ox oy r rows ↔
      ∃ k, ∃ h : k < rows.length, ∃ b, b < 8 ∧ rows[k].getLsbD (7 - b) = true ∧
        c = ((ox + b) % 64, (oy + r + k) % 32) := by
  induction rows generalizing r with
  | nil => simp [spriteCells]
  | cons row rows ih =>
    simp only [spriteCells, List.mem_append, ih, List.mem_map, List.mem_filter, List.mem_range]
    constructor
    · rintro (⟨b, ⟨hb, hbit⟩, rfl⟩ | ⟨k, hk, b, hb, hbit, rfl⟩)
      · exact ⟨0, by simp, b, hb, by simpa using hbit, rfl⟩
      · exact ⟨k + 1, by simpa using hk, b, hb, by simpa using hbit, by
          rw [show oy + (r + 1) + k = oy + r + (k + 1) by omega]⟩
    · rintro ⟨k, hk, b, hb, hbit, rfl⟩
      cases k with
      | zero => exact .inl ⟨b, ⟨hb, by simpa using hbit⟩, rfl⟩
      | succ k =>
        exact .inr ⟨k, by simpa using hk, b, hb, by simpa using hbit, by
          rw [show oy + (r + 1) + k = oy + r + (k + 1) by omega]⟩

theorem spriteCells_range {ox oy r : Nat} {rows : List Byte} :
    ∀ c ∈ spriteCells ox oy r rows, c.1 < 64 ∧ c.2 < 32 := by
  intro c hc
  obtain ⟨k, hk, b, hb, -, rfl⟩ := mem_spriteCells.1 hc
  exact ⟨Nat.mod_lt _ (by omega), Nat.mod_lt _ (by omega)⟩

/-- A sprite of at most 32 rows cannot overlap itself after wrapping (R152). -/
theorem spriteCells_nodup (ox oy r : Nat) (rows : List Byte) (h : rows.length ≤ 32) :
    (spriteCells ox oy r rows).Nodup := by
  induction rows generalizing r with
  | nil => simp [spriteCells]
  | cons row rows ih =>
    simp only [List.length_cons] at h
    simp only [spriteCells]
    refine List.nodup_append.2 ⟨?_, ih (r + 1) (by omega), ?_⟩
    · refine List.Nodup.map_on ?_ (List.nodup_range.filter _)
      intro b hb b' hb' he
      simp only [List.mem_filter, List.mem_range] at hb hb'
      have := congrArg Prod.fst he
      simp only at this
      omega
    · rintro c hc d hd rfl
      obtain ⟨b, -, rfl⟩ := List.mem_map.1 hc
      obtain ⟨k, hk, b', -, -, he⟩ := mem_spriteCells.1 hd
      have := congrArg Prod.snd he
      simp only at this
      omega

/-- Drawing, cell by cell: the cells under a set bit are flipped, the others kept, and a collision is
reported exactly when a cell under a set bit was 1. -/
theorem drawRows_spec (ox oy : Nat) (rows : List Byte) (h : rows.length ≤ 32) (fb : FrameBuffer) :
    (∀ x y, (drawRows ox oy 0 rows (fb, false)).1.cell x y
      = (fb.cell x y ^^ decide ((x, y) ∈ spriteCells ox oy 0 rows))) ∧
    (drawRows ox oy 0 rows (fb, false)).2
      = (spriteCells ox oy 0 rows).any fun c => fb.cell c.1 c.2 := by
  rw [drawRows_eq_toggleAll]
  simpa using toggleAll_spec (spriteCells_nodup ox oy 0 rows h) spriteCells_range (fb, false)

end Sys2Proof.Machine
end

