-- ==== Sys2Proof/Laws/Memory.lean ====
section
/-! SUPPORT. Memory: read after write, everything else kept, and the canonical form kept by every
memory operation (20_memory.md R59, R60; log 6). -/

namespace Sys2Proof.Machine

/-! ### The list of cells -/

theorem Memory.rising_mono {m : Memory} {lo lo' : Nat} (h : lo' ≤ lo) (hm : Memory.rising lo m = true) :
    Memory.rising lo' m = true := by
  cases m with
  | nil => rfl
  | cons c m =>
    simp only [Memory.rising, Bool.and_eq_true, decide_eq_true_eq] at hm ⊢
    exact ⟨by omega, hm.2⟩

theorem Memory.lookup_below {m : Memory} {lo a : Nat} (hm : Memory.rising lo m = true) (h : a < lo) :
    Memory.lookup m a = none := by
  induction m generalizing lo with
  | nil => rfl
  | cons c m ih =>
    simp only [Memory.rising, Bool.and_eq_true, decide_eq_true_eq] at hm
    have : ¬ a = c.1 := by omega
    simp [Memory.lookup, this, ih hm.2 (by omega)]

/-- An entry listed, replaced or removed, and every other address as before. -/
theorem Memory.lookup_put {m : Memory} {lo : Nat} (hm : Memory.rising lo m = true) (a c : Nat)
    (o : Option Byte) :
    Memory.lookup (Memory.put m a o) c = if c = a then o else Memory.lookup m c := by
  induction m generalizing lo with
  | nil => cases o <;> simp [Memory.put, Memory.lookup]
  | cons e m ih =>
    obtain ⟨k, b⟩ := e
    simp only [Memory.rising, Bool.and_eq_true, decide_eq_true_eq] at hm
    have ih := ih hm.2
    simp only [Memory.put]
    by_cases h1 : a < k
    · rw [if_pos h1]
      cases o with
      | some b' => simp [Memory.lookup]
      | none =>
        by_cases hc : c = a
        · subst hc
          have : Memory.lookup m c = none := Memory.lookup_below hm.2 (by omega)
          have hk : ¬ c = k := by omega
          simp [Memory.lookup, this, hk]
        · simp [hc]
    · rw [if_neg h1]
      by_cases h2 : a = k
      · rw [if_pos h2]
        subst h2
        cases o with
        | some b' => by_cases hc : c = a <;> simp [Memory.lookup, hc]
        | none =>
          by_cases hc : c = a
          · subst hc
            simp [Memory.lookup_below hm.2 (Nat.lt_succ_self _)]
          · simp [Memory.lookup, hc]
      · rw [if_neg h2]
        by_cases hc : c = k
        · have : ¬ k = a := fun h => h2 h.symm
          simp [Memory.lookup, hc, this]
        · simp [Memory.lookup, hc, ih]

theorem Memory.rising_put {m : Memory} {lo : Nat} (hm : Memory.rising lo m = true) {a : Nat}
    (ha : lo ≤ a) (o : Option Byte) : Memory.rising lo (Memory.put m a o) = true := by
  induction m generalizing lo with
  | nil => cases o <;> simp [Memory.put, Memory.rising, ha]
  | cons e m ih =>
    obtain ⟨k, b⟩ := e
    have hm' := hm
    simp only [Memory.rising, Bool.and_eq_true, decide_eq_true_eq] at hm
    simp only [Memory.put]
    split
    · cases o with
      | some b' => simp [Memory.rising, ha, hm.2]; omega
      | none => exact hm'
    · split
      · cases o with
        | some b' => simp [Memory.rising, hm.1, hm.2]
        | none => exact Memory.rising_mono (by omega) hm.2
      · simp [Memory.rising, hm.1, ih hm.2 (show k + 1 ≤ a by omega)]

theorem Memory.mem_put {m : Memory} {a : Nat} {o : Option Byte} {c : Host.Cell}
    (h : c ∈ Memory.put m a o) : c ∈ m ∨ (c.1 = a ∧ o = some c.2) := by
  induction m with
  | nil => cases o <;> simp_all [Memory.put]
  | cons e m ih =>
    obtain ⟨k, b⟩ := e
    simp only [Memory.put] at h
    split at h
    · cases o with
      | some b' =>
        simp only [List.mem_cons] at h
        rcases h with rfl | h
        · simp
        · left; simpa using h
      | none => exact .inl h
    · split at h
      · rename_i hk
        cases o with
        | some b' =>
          simp only [List.mem_cons] at h
          rcases h with rfl | h
          · exact .inr ⟨hk.symm, rfl⟩
          · exact .inl (by simp [h])
        | none => exact .inl (by simp [h])
      · simp only [List.mem_cons] at h ⊢
        rcases h with rfl | h
        · exact .inl (.inl rfl)
        · rcases ih h with h | h
          · exact .inl (.inr h)
          · exact .inr h

/-- Listing a byte of the address space that differs from the reset contents, or removing an entry,
keeps the canonical form. -/
theorem Memory.wf_put {p : Params} {m : Memory} (hm : Memory.wf p m = true) {a : Nat} (ha : a < 4096)
    {o : Option Byte} (ho : ∀ b, o = some b → b ≠ resetByte p a) :
    Memory.wf p (Memory.put m a o) = true := by
  simp only [Memory.wf, Bool.and_eq_true, List.all_eq_true, decide_eq_true_eq] at hm ⊢
  refine ⟨Memory.rising_put hm.1 (Nat.zero_le _) o, fun c hc => ?_⟩
  rcases Memory.mem_put hc with h | ⟨h1, h2⟩
  · exact hm.2 c h
  · subst h1
    exact ⟨ha, ho _ h2⟩

theorem Memory.wf_rising {p : Params} {m : Memory} (hm : Memory.wf p m = true) :
    Memory.rising 0 m = true := by
  simp only [Memory.wf, Bool.and_eq_true] at hm
  exact hm.1

/-- The memory of the reset state is canonical: it lists nothing (R240). -/
theorem Memory.wf_reset (p : Params) :
    Memory.wf (State.resetWith p).cfg (State.resetWith p).mem = true := rfl

/-! ### Bytes -/

theorem State.readByte_congr {s t : State} (hm : t.mem = s.mem) (hc : t.cfg = s.cfg) (a : Nat) :
    t.readByte a = s.readByte a := by
  simp [State.readByte, hm, hc]

@[simp] theorem State.readByte_setV (s : State) (x : Reg) (b : Byte) (a : Nat) :
    (s.setV x b).readByte a = s.readByte a := rfl
@[simp] theorem State.readByte_setPc (s : State) (c : Word) (a : Nat) :
    (s.setPc c).readByte a = s.readByte a := rfl
@[simp] theorem State.readByte_advance (s : State) (a : Nat) : s.advance.readByte a = s.readByte a := rfl
@[simp] theorem State.readByte_raise (s : State) (k : FaultKind) (w : Word) (c a : Nat) :
    (s.raise k w c).readByte a = s.readByte a := rfl
@[simp] theorem State.readByte_skipIf (s : State) (c : Bool) (a : Nat) :
    (s.skipIf c).readByte a = s.readByte a := State.readByte_congr (by simp) (by simp) a
@[simp] theorem State.readByte_loadRegs (s : State) (base n a : Nat) :
    (s.loadRegs base n).readByte a = s.readByte a := State.readByte_congr (by simp) (by simp) a
@[simp] theorem State.readByte_bumpIndex (s : State) (x : Reg) (a : Nat) :
    (s.bumpIndex x).readByte a = s.readByte a := State.readByte_congr (by simp) (by simp) a
@[simp] theorem State.readByte_writeFlagged (s : State) (x : Reg) (f : Byte) (g : State → Byte) (a : Nat) :
    (s.writeFlagged x f g).readByte a = s.readByte a := State.readByte_congr (by simp) (by simp) a

/-- Read after write (R60): the written byte at its address, every other byte as before. -/
theorem State.readByte_writeByte {s : State} (hm : Memory.rising 0 s.mem = true) (a c : Nat) (b : Byte) :
    (s.writeByte a b).readByte c = if c = a then b else s.readByte c := by
  simp only [State.readByte, State.writeByte_mem, State.writeByte_cfg, Memory.lookup_put hm]
  by_cases h : c = a
  · subst h
    by_cases hb : b = resetByte s.cfg c <;> simp [hb]
  · simp [h]

theorem State.wf_writeByte {s : State} (hm : Memory.wf s.cfg s.mem = true) {a : Nat} (ha : a < 4096)
    (b : Byte) : Memory.wf s.cfg (s.writeByte a b).mem = true := by
  refine Memory.wf_put hm ha fun c hc => ?_
  split at hc
  · cases hc
  · cases hc; assumption

/-- Storing bytes inside memory keeps the canonical form. -/
theorem State.wf_storeBytes {s : State} (hm : Memory.wf s.cfg s.mem = true) {a : Nat} {bs : List Byte}
    (ha : a + bs.length ≤ 4096) : Memory.wf s.cfg (s.storeBytes a bs).mem = true := by
  induction bs generalizing s a with
  | nil => exact hm
  | cons b bs ih =>
    simp only [List.length_cons] at ha
    have := ih (s := s.writeByte a b) (State.wf_writeByte hm (by omega) b) (a := a + 1) (by omega)
    simpa [State.storeBytes] using this

theorem State.rising_storeBytes {s : State} (hm : Memory.rising 0 s.mem = true) (a : Nat)
    (bs : List Byte) : Memory.rising 0 (s.storeBytes a bs).mem = true := by
  induction bs generalizing s a with
  | nil => exact hm
  | cons b bs ih => exact ih (s := s.writeByte a b) (Memory.rising_put hm (Nat.zero_le _) _) (a + 1)

/-- The bytes read after a store: the stored ones from `a` on, every other byte as before. -/
theorem State.readByte_storeBytes {s : State} (hm : Memory.rising 0 s.mem = true) (a : Nat)
    (bs : List Byte) (c : Nat) :
    (s.storeBytes a bs).readByte c =
      if h : a ≤ c ∧ c - a < bs.length then bs[c - a]'h.2 else s.readByte c := by
  induction bs generalizing s a with
  | nil => simp [State.storeBytes]
  | cons b bs ih =>
    have hm' : Memory.rising 0 (s.writeByte a b).mem = true := Memory.rising_put hm (Nat.zero_le _) _
    simp only [State.storeBytes, ih hm', State.readByte_writeByte hm]
    by_cases h1 : a + 1 ≤ c ∧ c - (a + 1) < bs.length
    · have h2 : a ≤ c ∧ c - a < (b :: bs).length := by simp; omega
      rw [dif_pos h1, dif_pos h2]
      have : c - a = c - (a + 1) + 1 := by omega
      simp [this]
    · rw [dif_neg h1]
      by_cases h3 : c = a
      · subst h3; simp
      · have h2 : ¬ (a ≤ c ∧ c - a < (b :: bs).length) := by simp; omega
        rw [dif_neg h2, if_neg h3]

@[simp] theorem State.loadBytes_length (s : State) (a n : Nat) : (s.loadBytes a n).length = n := by
  simp [State.loadBytes]

@[simp] theorem State.loadBytes_getElem (s : State) (a n k : Nat) (h : k < (s.loadBytes a n).length) :
    (s.loadBytes a n)[k] = s.readByte (a + k) := by
  simp [State.loadBytes]

/-- Outside the font every byte reads 0x00 after reset (R55). -/
theorem resetByte_past_font {p : Params} (hp : p.wellFormed = true) {a : Nat} (ha : 0x200 ≤ a) :
    resetByte p a = 0x00 := by
  simp only [Params.wellFormed, Bool.and_eq_true, decide_eq_true_eq] at hp
  unfold resetByte
  rw [dif_neg (by omega)]

end Sys2Proof.Machine
end

