-- ==== Sys2Proof/Laws/PerInstr.lean ====
section
/-! SUPPORT. Statements about every instruction, one lemma per constructor. -/

namespace Sys2Proof.Laws.FamilyNibble

/-- The family nibble of the opcode map (30_encoding.md R74). -/
def familyOf : Instr → BitVec 4
  | .cls | .ret => 0x0
  | .jp _ => 0x1
  | .call _ => 0x2
  | .seImm _ _ => 0x3
  | .sneImm _ _ => 0x4
  | .seReg _ _ => 0x5
  | .ldImm _ _ => 0x6
  | .addImm _ _ => 0x7
  | .ldReg _ _ | .or _ _ | .and _ _ | .xor _ _ | .addReg _ _ | .sub _ _ | .shr _ _ | .subn _ _ | .shl _ _ => 0x8
  | .sneReg _ _ => 0x9
  | .ldI _ => 0xA
  | .rnd _ _ => 0xC
  | .drw _ _ _ => 0xD
  | .skp _ | .sknp _ => 0xE
  | .ldVDt _ | .ldVK _ | .ldDtV _ | .ldStV _ | .addI _ | .ldF _ | .bcd _ | .store _ | .load _ => 0xF

/-- The encoded word carries its family in bits 15..12. -/
def Statement (i : Instr) : Prop := family (encode i) = familyOf i

theorem cls : Statement .cls := rfl
theorem ret : Statement .ret := rfl
theorem jp (nnn : BitVec 12) : Statement (.jp nnn) := family_packNNN _ _
theorem call (nnn : BitVec 12) : Statement (.call nnn) := family_packNNN _ _
theorem seImm (x : Reg) (nn : Byte) : Statement (.seImm x nn) := family_packXNN _ _ _
theorem sneImm (x : Reg) (nn : Byte) : Statement (.sneImm x nn) := family_packXNN _ _ _
theorem seReg (x : Reg) (y : Reg) : Statement (.seReg x y) := family_packXYN _ _ _ _
theorem ldImm (x : Reg) (nn : Byte) : Statement (.ldImm x nn) := family_packXNN _ _ _
theorem addImm (x : Reg) (nn : Byte) : Statement (.addImm x nn) := family_packXNN _ _ _
theorem ldReg (x : Reg) (y : Reg) : Statement (.ldReg x y) := family_packXYN _ _ _ _
theorem or (x : Reg) (y : Reg) : Statement (.or x y) := family_packXYN _ _ _ _
theorem and (x : Reg) (y : Reg) : Statement (.and x y) := family_packXYN _ _ _ _
theorem xor (x : Reg) (y : Reg) : Statement (.xor x y) := family_packXYN _ _ _ _
theorem addReg (x : Reg) (y : Reg) : Statement (.addReg x y) := family_packXYN _ _ _ _
theorem sub (x : Reg) (y : Reg) : Statement (.sub x y) := family_packXYN _ _ _ _
theorem shr (x : Reg) (y : Reg) : Statement (.shr x y) := family_packXYN _ _ _ _
theorem subn (x : Reg) (y : Reg) : Statement (.subn x y) := family_packXYN _ _ _ _
theorem shl (x : Reg) (y : Reg) : Statement (.shl x y) := family_packXYN _ _ _ _
theorem sneReg (x : Reg) (y : Reg) : Statement (.sneReg x y) := family_packXYN _ _ _ _
theorem ldI (nnn : BitVec 12) : Statement (.ldI nnn) := family_packNNN _ _
theorem rnd (x : Reg) (nn : Byte) : Statement (.rnd x nn) := family_packXNN _ _ _
theorem drw (x : Reg) (y : Reg) (n : BitVec 4) : Statement (.drw x y n) := family_packXYN _ _ _ _
theorem skp (x : Reg) : Statement (.skp x) := family_packXNN _ _ _
theorem sknp (x : Reg) : Statement (.sknp x) := family_packXNN _ _ _
theorem ldVDt (x : Reg) : Statement (.ldVDt x) := family_packXNN _ _ _
theorem ldVK (x : Reg) : Statement (.ldVK x) := family_packXNN _ _ _
theorem ldDtV (x : Reg) : Statement (.ldDtV x) := family_packXNN _ _ _
theorem ldStV (x : Reg) : Statement (.ldStV x) := family_packXNN _ _ _
theorem addI (x : Reg) : Statement (.addI x) := family_packXNN _ _ _
theorem ldF (x : Reg) : Statement (.ldF x) := family_packXNN _ _ _
theorem bcd (x : Reg) : Statement (.bcd x) := family_packXNN _ _ _
theorem store (x : Reg) : Statement (.store x) := family_packXNN _ _ _
theorem load (x : Reg) : Statement (.load x) := family_packXNN _ _ _

end Sys2Proof.Laws.FamilyNibble
end

