-- ==== Sys2Proof/Laws/Registers.lean ====
section
/-! SUPPORT. What reading a general register gives after each operation, and the other register-like
operations: flags in both orders, register transfers, the call stack, the range check, fetch. -/

namespace Sys2Proof.Machine

/-! ### General registers -/

theorem State.getV_setV (s : State) (x k : Reg) (b : Byte) :
    (s.setV x b).getV k = if k = x then b else s.getV k := by
  simp only [State.getV, State.setV_v, Vector.getElem_set, Fin.ext_iff, eq_comm]

@[simp] theorem State.getV_setV_self (s : State) (x : Reg) (b : Byte) : (s.setV x b).getV x = b := by
  simp [State.getV_setV]

theorem State.getV_congr {s t : State} (h : t.v = s.v) (k : Reg) : t.getV k = s.getV k := by
  simp [State.getV, h]

/-- Two states with the same register values have the same register file. -/
theorem State.v_ext {s t : State} (h : ∀ k : Reg, t.getV k = s.getV k) : t.v = s.v :=
  Vector.ext fun i hi => h ⟨i, hi⟩

@[simp] theorem State.getV_advance (s : State) (k : Reg) : s.advance.getV k = s.getV k := rfl
@[simp] theorem State.getV_setPc (s : State) (a : Word) (k : Reg) : (s.setPc a).getV k = s.getV k := rfl
@[simp] theorem State.getV_skipIf (s : State) (c : Bool) (k : Reg) : (s.skipIf c).getV k = s.getV k :=
  State.getV_congr (by simp) k
@[simp] theorem State.getV_raise (s : State) (f : FaultKind) (w : Word) (a : Nat) (k : Reg) :
    (s.raise f w a).getV k = s.getV k := rfl
@[simp] theorem State.getV_storeBytes (s : State) (a : Nat) (bs : List Byte) (k : Reg) :
    (s.storeBytes a bs).getV k = s.getV k := State.getV_congr (by simp) k
@[simp] theorem State.getV_bumpIndex (s : State) (x k : Reg) : (s.bumpIndex x).getV k = s.getV k :=
  State.getV_congr (by simp) k

/-- The registers after a flagged result, in either order (R101). -/
theorem State.getV_writeFlagged (s : State) (x k : Reg) (f : Byte) (g : State → Byte) :
    (s.writeFlagged x f g).getV k =
      match s.cfg.vfOrder with
      | .docSequential => if k = x then g (s.setV vf f) else if k = vf then f else s.getV k
      | .latchedFlagLast => if k = vf then f else if k = x then g s else s.getV k := by
  unfold State.writeFlagged
  cases s.cfg.vfOrder <;> simp only [State.getV_setV]

/-- The registers after a register load: `V[k]` comes from `base + k` for `k` below `n` (R165). -/
theorem State.getV_loadRegs (s : State) (base n : Nat) (hn : n ≤ 16) (k : Reg) :
    (s.loadRegs base n).getV k = if k.val < n then s.readByte (base + k.val) else s.getV k := by
  induction n with
  | zero => simp [State.loadRegs]
  | succ n ih =>
    have hn' : n < 16 := by omega
    have ih := ih (by omega)
    simp only [State.loadRegs, hn', dif_pos, State.getV_setV, Fin.ext_iff, ih]
    by_cases h : k.val = n
    · simp [h]
    · have : (k.val < n + 1) = (k.val < n) := by simp; omega
      simp [h, this]

@[simp] theorem State.regsUpTo_length (s : State) (x : Reg) : (s.regsUpTo x).length = x.val + 1 := by
  have := x.isLt
  simp [State.regsUpTo]

/-- Byte `k` of V0..Vx is `V[k]` (R164). -/
theorem State.regsUpTo_getElem (s : State) (x : Reg) (k : Nat) (h : k < (s.regsUpTo x).length) :
    (s.regsUpTo x)[k] = s.getV ⟨k, by have := x.isLt; simp at h; omega⟩ := by
  simp [State.regsUpTo, State.getV]

/-! ### The range check -/

/-- The range check finds the lowest address above 0xFFF, if there is one (R51, R59). -/
theorem checkRange_eq (base n : Nat) :
    checkRange base n = if n = 0 ∨ base + n ≤ 0x1000 then none else some (max base 0x1000) := by
  unfold checkRange
  induction n with
  | zero => rfl
  | succ n ih =>
    rw [List.range_succ, List.findSome?_append, ih]
    simp only [List.findSome?_cons, List.findSome?_nil, checkAddr]
    by_cases h : n = 0 ∨ base + n ≤ 0x1000
    · by_cases h' : 0xFFF < base + n
      · have : max base 0x1000 = base + n := by omega
        have h2 : ¬ (n + 1 = 0 ∨ base + (n + 1) ≤ 0x1000) := by omega
        simp only [h, if_true, h', h2, if_false, this]
        rfl
      · have h2 : (n + 1 = 0 ∨ base + (n + 1) ≤ 0x1000) := by omega
        simp only [h, if_true, h', h2, if_false]
        rfl
    · have h2 : ¬ (n + 1 = 0 ∨ base + (n + 1) ≤ 0x1000) := by omega
      simp only [h, if_false, h2]
      rfl

theorem checkRange_eq_none_iff (base n : Nat) :
    checkRange base n = none ↔ n = 0 ∨ base + n ≤ 0x1000 := by
  rw [checkRange_eq]; split <;> simp_all

/-! ### Fetch -/

theorem State.fetch_ok (s : State) (h : s.pc.toNat ≤ 0xFFE) :
    s.fetch = .ok (wordOfBytes (s.readByte s.pc.toNat) (s.readByte (s.pc.toNat + 1))) := by
  have : checkRange s.pc.toNat 2 = none := (checkRange_eq_none_iff ..).2 (by omega)
  simp [State.fetch, this]

theorem State.fetch_error (s : State) (h : 0xFFE < s.pc.toNat) :
    s.fetch = .error (max s.pc.toNat 0x1000) := by
  have : checkRange s.pc.toNat 2 = some (max s.pc.toNat 0x1000) := by
    rw [checkRange_eq, if_neg (by omega)]
  simp [State.fetch, this]

/-! ### The fault latch -/

theorem State.raise_eq {s : State} (h : s.fault = none) (k : FaultKind) (w : Word) (a : Nat) :
    s.raise k w a = { s with fault := some ⟨k, w, s.pc, BitVec.ofNat 16 a⟩ } := by
  simp [State.raise, h]

/-- A latch that is set stays as it is (R32). -/
theorem State.raise_sticky {s : State} {r : FaultRecord} (h : s.fault = some r) (k : FaultKind)
    (w : Word) (a : Nat) : s.raise k w a = s := by
  cases s
  simp_all [State.raise]

/-! ### The call stack -/

theorem State.push_some (s : State) (a : Word) (h : s.sp.val < 16) :
    s.push a = some { s with stack := s.stack.set s.sp.val a, sp := ⟨s.sp.val + 1, by omega⟩ } := by
  simp [State.push, h]

theorem State.push_none (s : State) (a : Word) (h : ¬ s.sp.val < 16) : s.push a = none := by
  simp [State.push, h]

theorem State.pop_some (s : State) (h : 0 < s.sp.val) :
    s.pop = some (s.stack[s.sp.val - 1]'(by omega), { s with sp := ⟨s.sp.val - 1, by omega⟩ }) := by
  simp [State.pop, h]

theorem State.pop_none (s : State) (h : ¬ 0 < s.sp.val) : s.pop = none := by
  simp [State.pop, h]

/-! ### Flag values -/

/-- A flag computation gives 0x00 or 0x01 (R109). -/
theorem flagByte_cases (c : Bool) : flagByte c = 0x00 ∨ flagByte c = 0x01 := by cases c <;> simp [flagByte]

theorem lowBitFlag_eq (a : Byte) : lowBitFlag a = flagByte (a.getLsbD 0) := by
  revert a; decide

theorem highBitFlag_eq (a : Byte) : highBitFlag a = flagByte (a.getLsbD 7) := by
  revert a; decide

/-! ### The keys (R181) -/

/-- The lowest-numbered held key is found. -/
theorem State.lowestKey_some {s : State} {k : Reg} (h : s.keyHeld k = true)
    (hl : ∀ j, j < k → s.keyHeld j = false) : s.lowestKey = some k.val := by
  unfold State.lowestKey
  rw [List.find?_range_eq_some]
  refine ⟨?_, by simp, fun j hj => ?_⟩
  · simpa [State.keyHeld] using h
  · have hj' : j < 16 := by omega
    simpa [State.keyHeld, hj'] using hl ⟨j, hj'⟩ hj

/-- With no key held none is found. -/
theorem State.lowestKey_none {s : State} (hl : ∀ j, s.keyHeld j = false) : s.lowestKey = none := by
  unfold State.lowestKey
  rw [List.find?_eq_none]
  intro j hj
  have hj' : j < 16 := by simpa using hj
  simpa [State.keyHeld, hj'] using hl ⟨j, hj'⟩

/-- A register value below 16 names a key (R137, R138). -/
theorem keyId_of_lt {b : Byte} (h : b.toNat < 16) : keyId b = some ⟨b.toNat, h⟩ := by
  simp [keyId, h]

/-- A register value above 15 names none. -/
theorem keyId_of_not_lt {b : Byte} (h : ¬ b.toNat < 16) : keyId b = none := by
  simp [keyId, h]

end Sys2Proof.Machine
end

