-- ==== Sys2Proof/Laws/Strobes.lean ====
section
/-! SUPPORT. What the ports do to the state, each said once: EXEC by cases, the tick field by field, the
load, and the placing of a word. -/

namespace Sys2Proof.Machine

/-! ### EXEC (R80, R206) -/

theorem execStrobe_halted {s : State} {r : FaultRecord} (h : s.fault = some r) :
    execStrobe s = .fault (.halted r) := by
  simp [execStrobe, h]

theorem execStrobe_fetch_fault {s : State} (hf : s.fault = none) (hp : 0xFFE < s.pc.toNat) :
    execStrobe s = .next (s.raise .memoryFault 0x0000 (max s.pc.toNat 0x1000)) := by
  simp only [execStrobe, hf, State.fetch_error s hp]

/-- The word that a fetch from inside memory gives. -/
def State.fetchedWord (s : State) : Word :=
  wordOfBytes (s.readByte s.pc.toNat) (s.readByte (s.pc.toNat + 1))

theorem execStrobe_invalid {s : State} {e : Reject} (hf : s.fault = none) (hp : s.pc.toNat ≤ 0xFFE)
    (hd : decode s.cfg.fx0aMode s.fetchedWord = .error e) :
    execStrobe s = .next (s.raise .invalidInstruction s.fetchedWord 0) := by
  unfold State.fetchedWord at *
  simp only [execStrobe, hf, State.fetch_ok s hp, hd]

theorem execStrobe_exec {s : State} {i : Instr} (hf : s.fault = none) (hp : s.pc.toNat ≤ 0xFFE)
    (hd : decode s.cfg.fx0aMode s.fetchedWord = .ok i) : execStrobe s = exec i s := by
  unfold State.fetchedWord at hd
  simp only [execStrobe, hf, State.fetch_ok s hp, hd]

/-- Everything an EXEC that answers a next state can have done: it latched a fetch fault, it latched an
invalid word, or it executed the decoded instruction. -/
theorem execStrobe_cases {s t : State} (h : execStrobe s = .next t) :
    s.fault = none ∧
    ((0xFFE < s.pc.toNat ∧ t = s.raise .memoryFault 0x0000 (max s.pc.toNat 0x1000)) ∨
     (s.pc.toNat ≤ 0xFFE ∧
      ((∃ e, decode s.cfg.fx0aMode s.fetchedWord = .error e ∧
          t = s.raise .invalidInstruction s.fetchedWord 0) ∨
        ∃ i, decode s.cfg.fx0aMode s.fetchedWord = .ok i ∧ exec i s = .next t))) := by
  cases hf : s.fault with
  | some r => rw [execStrobe_halted hf] at h; cases h
  | none =>
    refine ⟨rfl, ?_⟩
    by_cases hp : 0xFFE < s.pc.toNat
    · rw [execStrobe_fetch_fault hf hp] at h
      cases h
      exact .inl ⟨hp, rfl⟩
    · have hp' : s.pc.toNat ≤ 0xFFE := Nat.le_of_not_lt hp
      refine .inr ⟨hp', ?_⟩
      cases hd : decode s.cfg.fx0aMode s.fetchedWord with
      | error e =>
        rw [execStrobe_invalid hf hp' hd] at h
        cases h
        exact .inl ⟨e, rfl, rfl⟩
      | ok i => exact .inr ⟨i, rfl, (execStrobe_exec hf hp' hd).symm.trans h⟩

/-! ### The step -/

theorem step_free {s : State} (h : s.strobes = []) : step s = execStrobe s := by
  simp only [step, h]

theorem step_strobe {s : State} {e : Strobe} {rest : List Strobe} (h : s.strobes = e :: rest) :
    step s = strobe e { s with strobes := rest } := by
  simp only [step, h]

/-- A run goes on from the state that its first step answers. -/
theorem core_run_next {n : Nat} {s t : State} (h : step s = .next t) :
    Sys2Proof.core.run (n + 1) s = Sys2Proof.core.run n t := by
  have h' : Sys2Proof.core.step s = .next t := h
  simp only [Host.Core.run, h']

/-! ### TICK (R220, R221) -/

theorem tick_halted {s : State} {r : FaultRecord} (h : s.fault = some r) : tick s = s := by
  simp [tick, h]

theorem tick_running {s : State} (h : s.fault = none) :
    tick s = { s with
      dt := if s.dt = 0 then 0 else s.dt - 1
      st := if s.st = 0 then 0 else s.st - 1
      tone := s.st == 1 } := by
  simp [tick, h]

/-- A byte counted down by one, stopping at 0. -/
theorem countDown_toNat (b : Byte) : (if b = 0 then 0 else b - 1 : Byte).toNat = b.toNat - 1 := by
  revert b
  decide

/-! ### LOAD (R243) -/

/-- Everything a LOAD can answer. -/
theorem loadPort_cases (image : List Byte) (s : State) :
    ((s.loaded = true ∨ s.fault ≠ none) ∧ loadPort image s = .outsideContract) ∨
    ((s.loaded = false ∧ s.fault = none) ∧
      ((3584 < image.length ∧ loadPort image s = .programTooLarge) ∨
       (image.length ≤ 3584 ∧
        loadPort image s = .loadOk { s.storeBytes 0x200 image with loaded := true }))) := by
  unfold loadPort
  cases hl : s.loaded <;> cases hf : s.fault <;> simp
  by_cases h : 3584 < image.length
  · simp [h]
  · simp [h]; omega

/-! ### Placing a word (log 24) -/

/-- The state in which a word is placed: running, no strobe pending, a PC that can be fetched from. -/
def State.readyToFetch (s : State) : State :=
  { s with
    fault := none
    strobes := []
    pc := if s.pc.toNat ≤ 0xFFE then s.pc else 0x0200 }

theorem State.withFetchWord_eq (s : State) (w : Word) :
    s.withFetchWord 16 w.toNat
      = s.readyToFetch.storeBytes s.readyToFetch.pc.toNat [highByte w, lowByte w] := by
  have hw : tableWord 16 w.toNat = w := by
    simp only [tableWord, Nat.mod_eq_of_lt w.isLt, BitVec.ofNat_toNat, BitVec.setWidth_eq]
  unfold State.withFetchWord State.placeWord State.storeWord State.readyToFetch
  rw [hw]
  dsimp only
  split <;> rfl

theorem State.readyToFetch_pc_le (s : State) : s.readyToFetch.pc.toNat ≤ 0xFFE := by
  unfold State.readyToFetch
  dsimp only
  split
  · assumption
  · decide

end Sys2Proof.Machine
end

