-- ==== Sys2Proof/Laws/Words.lean ====
section
/-! SUPPORT. The words as the rules of files 40 to 44 write them (`op | x<<8 | nn`, …) are the packed words
of the encoder. -/

namespace Sys2Proof.Machine

theorem or_eq_add {k a b : Nat} (hb : b < 2 ^ k) : (2 ^ k * a) ||| b = 2 ^ k * a + b :=
  (Nat.two_pow_add_eq_or_of_lt hb a).symm

theorem wordNNN_eq (op : Word) (f : BitVec 4) (nnn : BitVec 12) (h : op.toNat = 2 ^ 12 * f.toNat) :
    wordNNN op nnn = packNNN f nnn := by
  refine BitVec.eq_of_toNat_eq ?_
  have hn := nnn.isLt
  rw [packNNN_toNat, wordNNN, BitVec.toNat_or, BitVec.toNat_setWidth, h, Nat.mod_eq_of_lt (by omega),
    or_eq_add hn]
  omega

theorem wordXNN_eq (op : Word) (f : BitVec 4) (x : Reg) (nn : Byte) (h : op.toNat = 2 ^ 12 * f.toNat) :
    wordXNN op x nn = packXNN f x nn := by
  refine BitVec.eq_of_toNat_eq ?_
  have hn := nnn_lt nn
  have hx := x.isLt
  rw [packXNN_toNat, wordXNN, BitVec.toNat_or, BitVec.toNat_or, BitVec.toNat_setWidth,
    BitVec.toNat_shiftLeft, BitVec.toNat_ofNat, h, Nat.shiftLeft_eq,
    Nat.mod_eq_of_lt (by omega : x.val < 2 ^ 16), Nat.mod_eq_of_lt (by omega : x.val * 2 ^ 8 < 2 ^ 16),
    Nat.mod_eq_of_lt (by omega : nn.toNat < 2 ^ 16), or_eq_add (by omega : x.val * 2 ^ 8 < 2 ^ 12),
    show 2 ^ 12 * f.toNat + x.val * 2 ^ 8 = 2 ^ 8 * (16 * f.toNat + x.val) by omega, or_eq_add hn]
  omega
where
  nnn_lt (nn : Byte) : nn.toNat < 2 ^ 8 := nn.isLt

theorem wordXYN_eq (op : Word) (f : BitVec 4) (x y : Reg) (n : BitVec 4)
    (h : op.toNat = 2 ^ 12 * f.toNat) : wordXYN op x y n = packXYN f x y n := by
  refine BitVec.eq_of_toNat_eq ?_
  have hn : n.toNat < 2 ^ 4 := n.isLt
  have hx := x.isLt
  have hy := y.isLt
  rw [packXYN_toNat, wordXYN, BitVec.toNat_or, BitVec.toNat_or, BitVec.toNat_or, BitVec.toNat_setWidth,
    BitVec.toNat_shiftLeft, BitVec.toNat_shiftLeft, BitVec.toNat_ofNat, BitVec.toNat_ofNat, h,
    Nat.shiftLeft_eq, Nat.shiftLeft_eq,
    Nat.mod_eq_of_lt (by omega : x.val < 2 ^ 16), Nat.mod_eq_of_lt (by omega : x.val * 2 ^ 8 < 2 ^ 16),
    Nat.mod_eq_of_lt (by omega : y.val < 2 ^ 16), Nat.mod_eq_of_lt (by omega : y.val * 2 ^ 4 < 2 ^ 16),
    Nat.mod_eq_of_lt (by omega : n.toNat < 2 ^ 16), or_eq_add (by omega : x.val * 2 ^ 8 < 2 ^ 12),
    show 2 ^ 12 * f.toNat + x.val * 2 ^ 8 = 2 ^ 8 * (16 * f.toNat + x.val) by omega,
    or_eq_add (by omega : y.val * 2 ^ 4 < 2 ^ 8),
    show 2 ^ 8 * (16 * f.toNat + x.val) + y.val * 2 ^ 4
      = 2 ^ 4 * (256 * f.toNat + 16 * x.val + y.val) by omega, or_eq_add hn]
  omega

/-- `op | nn | x<<8` with the second byte of the opcode split off. -/
theorem wordX_eq (op op' : Word) (x : Reg) (nn : Byte) (h : op' = op ||| nn.setWidth 16) :
    wordX op' x = wordXNN op x nn := by
  rw [h, wordX, wordXNN, BitVec.or_assoc, BitVec.or_assoc, BitVec.or_comm (nn.setWidth 16)]

/-- `op | n | x<<8 | y<<4` with the last nibble of the opcode split off. -/
theorem wordXY_eq (op op' : Word) (x y : Reg) (n : BitVec 4) (h : op' = op ||| n.setWidth 16) :
    wordXY op' x y = wordXYN op x y n := by
  rw [h, wordXY, wordXYN, BitVec.or_assoc op, BitVec.or_comm (n.setWidth 16), ← BitVec.or_assoc,
    BitVec.or_assoc, BitVec.or_comm (n.setWidth 16), ← BitVec.or_assoc]

end Sys2Proof.Machine
end

