-- ==== Sys2Proof/Tests/Slice0.lean ====
section
/-! SUPPORT. The model's own tests, each expected value taken from the spec: 30_encoding.md for the words,
95_test_vectors.md for the effects (the vector's id stands in the comment). Last, a witness for every
obligation that has hypotheses. -/

namespace Sys2Proof.Tests

open Sys2Proof Sys2Proof.Machine

/-! ### Helpers -/

/-- The outcome is a next state with this property. -/
def holds (o : Result) (p : State → Bool) : Bool :=
  match o with
  | .next t => p t
  | .fault _ => false
  | .refused _ => false

/-- One step of `s` on the word `w` placed at its PC. -/
def one (w : Nat) (s : State) (p : State → Bool) : Bool := holds (step (s.withFetchWord 16 w)) p

/-- `s` with some registers set. -/
def regs (l : List (Reg × Byte)) (s : State) : State := l.foldl (fun s c => s.setV c.1 c.2) s

/-- The reset state with some registers set. -/
def r0 (l : List (Reg × Byte)) : State := regs l State.reset

/-- Its other order of flag and result. -/
def flagLast (s : State) : State := { s with cfg := { s.cfg with vfOrder := .latchedFlagLast } }

/-- Its `Fx0A` mode set to `wait`. -/
def waiting (s : State) : State := { s with cfg := { s.cfg with fx0aMode := .wait } }

/-- Its transfers moving I. -/
def moving (s : State) : State := { s with cfg := { s.cfg with ldstIncr := true } }

/-- The fault latch as code, word, pc and addr. -/
def latch (s : State) : List Nat :=
  match s.fault with
  | none => []
  | some r => [r.kind.code, r.word.toNat, r.pc.toNat, r.addr.toNat]

/-- The lit cells among those named, in order. -/
def lit (s : State) (cells : List (Nat × Nat)) : List Bool := cells.map fun c => s.fb.cell c.1 c.2

/-- How many cells are lit. -/
def litCount (s : State) : Nat :=
  ((List.range 32).map fun y => ((List.range 64).filter fun x => s.fb.cell x y).length).sum

/-! ### Well-formedness: each check refuses an ill-formed term -/

theorem test_wf_key_wait_needs_wait_mode : Instr.wellFormed .fault (.ldVK 3) = false := by decide
theorem test_wf_key_wait_in_wait_mode : Instr.wellFormed .wait (.ldVK 3) = true := by decide
theorem test_wf_defaults : Config.defaults.wellFormed = true := by decide
theorem test_wf_font_must_end_below_program :
    Params.wellFormed { Config.defaults with fontBase := 0x1B1 } = false := by decide
theorem test_wf_font_may_end_at_program :
    Params.wellFormed { Config.defaults with fontBase := 0x1B0 } = true := by decide
theorem test_wf_rate_is_positive : Params.wellFormed { Config.defaults with ipsNum := 0 } = false := by
  decide
theorem test_wf_rate_is_a_number : Params.wellFormed { Config.defaults with ipsDen := 0 } = false := by
  decide
theorem test_wf_memory_unsorted :
    Memory.wf Config.defaults [(0x301, 1), (0x300, 1)] = false := by decide
theorem test_wf_memory_repeated :
    Memory.wf Config.defaults [(0x300, 1), (0x300, 2)] = false := by decide
theorem test_wf_memory_outside : Memory.wf Config.defaults [(0x1000, 1)] = false := by decide
theorem test_wf_memory_default_byte : Memory.wf Config.defaults [(0x300, 0x00)] = false := by decide
theorem test_wf_memory_font_byte : Memory.wf Config.defaults [(0x000, 0xF0)] = false := by decide
theorem test_wf_memory_canonical :
    Memory.wf Config.defaults [(0x000, 0x00), (0x300, 1), (0xFFF, 2)] = true := by decide

/-! ### Decoding: one word, written bit by bit from R74, for every constructor -/

theorem test_decode_family0 :
    decode .fault 0b0000000011100000 = .ok .cls ∧ decode .fault 0b0000000011101110 = .ok .ret := by
  decide
theorem test_decode_families1to7 :
    decode .fault 0b0001101010111100 = .ok (.jp 0xABC) ∧
    decode .fault 0b0010010001010110 = .ok (.call 0x456) ∧
    decode .fault 0b0011000100010010 = .ok (.seImm 1 0x12) ∧
    decode .fault 0b0100111000010011 = .ok (.sneImm 14 0x13) ∧
    decode .fault 0b0101000101110000 = .ok (.seReg 1 7) ∧
    decode .fault 0b0110001110101011 = .ok (.ldImm 3 0xAB) ∧
    decode .fault 0b0111110000000101 = .ok (.addImm 12 0x05) := by
  decide
theorem test_decode_family8 :
    decode .fault 0b1000000100100000 = .ok (.ldReg 1 2) ∧
    decode .fault 0b1000000100100001 = .ok (.or 1 2) ∧
    decode .fault 0b1000000100100010 = .ok (.and 1 2) ∧
    decode .fault 0b1000000100100011 = .ok (.xor 1 2) ∧
    decode .fault 0b1000000100100100 = .ok (.addReg 1 2) ∧
    decode .fault 0b1000000100100101 = .ok (.sub 1 2) ∧
    decode .fault 0b1000000100100110 = .ok (.shr 1 2) ∧
    decode .fault 0b1000000100100111 = .ok (.subn 1 2) ∧
    decode .fault 0b1000000100101110 = .ok (.shl 1 2) := by
  decide
theorem test_decode_families9toE :
    decode .fault 0b1001000100100000 = .ok (.sneReg 1 2) ∧
    decode .fault 0b1010000100100011 = .ok (.ldI 0x123) ∧
    decode .fault 0b1100000100001111 = .ok (.rnd 1 0x0F) ∧
    decode .fault 0b1101101111000101 = .ok (.drw 11 12 5) ∧
    decode .fault 0b1110000110011110 = .ok (.skp 1) ∧
    decode .fault 0b1110001010100001 = .ok (.sknp 2) := by
  decide
theorem test_decode_familyF :
    decode .fault 0b1111001100000111 = .ok (.ldVDt 3) ∧
    decode .wait 0b1111001000001010 = .ok (.ldVK 2) ∧
    decode .fault 0b1111000100010101 = .ok (.ldDtV 1) ∧
    decode .fault 0b1111000100011000 = .ok (.ldStV 1) ∧
    decode .fault 0b1111001000011110 = .ok (.addI 2) ∧
    decode .fault 0b1111000100101001 = .ok (.ldF 1) ∧
    decode .fault 0b1111000000110011 = .ok (.bcd 0) ∧
    decode .fault 0b1111001001010101 = .ok (.store 2) ∧
    decode .fault 0b1111001001100101 = .ok (.load 2) := by
  decide
/-- FV1 to FV8. -/
theorem test_decode_rejects_by_name :
    decode .fault 0x00E1 = .error .machineCall0 ∧ decode .fault 0x0123 = .error .machineCall0 ∧
    decode .fault 0xB123 = .error .familyB ∧ decode .fault 0x5121 = .error .nibble5 ∧
    decode .fault 0x9121 = .error .nibble9 ∧ decode .fault 0x8128 = .error .nibble8 ∧
    decode .fault 0x812F = .error .nibble8 ∧ decode .fault 0xE19F = .error .byteE ∧
    decode .fault 0xF100 = .error .byteF ∧ decode .fault 0xF20A = .error .keyWaitUnsupported := by
  decide
theorem test_decode_bytes_big_endian :
    decodeBytes .fault [0x63, 0xAB, 0x01] = .ok (.ldImm 3 0xAB, [0x01]) ∧
    decodeBytes .fault [0x63] = .error .truncated := by
  decide
theorem test_decode_table_word :
    decodeTableWord 16 0x8014 = some (.addReg 0 1) ∧ decodeTableWord 16 0xF20A = some (.ldVK 2) ∧
    decodeTableWord 16 0xB123 = none := by
  decide

/-! ### One step of each instruction -/

/-- AV1. -/
theorem test_ldImm : one 0x63AB State.reset (fun t => t.getV 3 == 0xAB && t.pc == 0x202) = true := by
  decide
/-- AV3, W2. -/
theorem test_addImm_wraps :
    one 0x7005 (r0 [(0, 0xFF), (15, 0x77)]) (fun t => t.getV 0 == 0x04 && t.getV 15 == 0x77) = true := by
  decide
/-- AV5. -/
theorem test_addImm_vf : one 0x7F01 (r0 [(15, 0x01)]) (fun t => t.getV 15 == 0x02) = true := by decide
/-- AV6. -/
theorem test_ldReg :
    one 0x8120 (r0 [(2, 0x5A)]) (fun t => t.getV 1 == 0x5A && t.getV 2 == 0x5A) = true := by decide
/-- AV7. -/
theorem test_or :
    one 0x8121 (r0 [(1, 0xF0), (2, 0x0F), (15, 0x33)])
      (fun t => t.getV 1 == 0xFF && t.getV 15 == 0x33) = true := by decide
/-- AV8. -/
theorem test_and : one 0x8122 (r0 [(1, 0xF0), (2, 0x3C)]) (fun t => t.getV 1 == 0x30) = true := by decide
/-- AV9. -/
theorem test_xor : one 0x8123 (r0 [(1, 0xF0), (2, 0x3C)]) (fun t => t.getV 1 == 0xCC) = true := by decide
/-- AV11, W3. -/
theorem test_addReg_carry :
    one 0x8124 (r0 [(1, 0xFF), (2, 0x02)]) (fun t => t.getV 1 == 0x01 && t.getV 15 == 0x01) = true := by
  decide
/-- AV16, AV17. -/
theorem test_addReg_vf :
    one 0x8F14 (r0 [(15, 0xFF), (1, 0x01)]) (fun t => t.getV 15 == 0x01) = true ∧
    one 0x81F4 (r0 [(1, 0x10), (15, 0xF5)]) (fun t => t.getV 1 == 0x05 && t.getV 15 == 0x01) = true := by
  decide
/-- AV18, AV20. -/
theorem test_sub_no_borrow :
    one 0x8125 (r0 [(1, 0x0F), (2, 0xFF)]) (fun t => t.getV 1 == 0x10 && t.getV 15 == 0x00) = true ∧
    one 0x8125 (r0 [(1, 0x42), (2, 0x42)]) (fun t => t.getV 1 == 0x00 && t.getV 15 == 0x01) = true := by
  decide
/-- AV22, AV23. -/
theorem test_sub_vf :
    one 0x8F15 (r0 [(15, 0x05), (1, 0x03)]) (fun t => t.getV 15 == 0xFE) = true ∧
    one 0x8F15 (flagLast (r0 [(15, 0x05), (1, 0x03)])) (fun t => t.getV 15 == 0x01) = true ∧
    one 0x81F5 (r0 [(1, 0x05), (15, 0x03)]) (fun t => t.getV 1 == 0x04 && t.getV 15 == 0x01) = true ∧
    one 0x81F5 (flagLast (r0 [(1, 0x05), (15, 0x03)]))
      (fun t => t.getV 1 == 0x02 && t.getV 15 == 0x01) = true := by
  decide
/-- AV24, AV25. -/
theorem test_shr :
    one 0x8106 (r0 [(1, 0x05)]) (fun t => t.getV 1 == 0x02 && t.getV 15 == 0x01) = true ∧
    one 0x8126 (r0 [(1, 0x80), (2, 0xFF)]) (fun t => t.getV 1 == 0x40 && t.getV 15 == 0x00) = true := by
  decide
/-- AV27. -/
theorem test_shr_vf :
    one 0x8F06 (r0 [(15, 0x03)]) (fun t => t.getV 15 == 0x00) = true ∧
    one 0x8F06 (flagLast (r0 [(15, 0x03)])) (fun t => t.getV 15 == 0x01) = true := by
  decide
/-- AV28, AV29. -/
theorem test_subn :
    one 0x8127 (r0 [(1, 0x0F), (2, 0xFF)]) (fun t => t.getV 1 == 0xF0 && t.getV 15 == 0x01) = true ∧
    one 0x8127 (r0 [(1, 0xFF), (2, 0x0F)]) (fun t => t.getV 1 == 0x10 && t.getV 15 == 0x00) = true := by
  decide
/-- AV31, AV32. -/
theorem test_subn_vf :
    one 0x8F27 (r0 [(15, 0x03), (2, 0x05)]) (fun t => t.getV 15 == 0x04) = true ∧
    one 0x8F27 (flagLast (r0 [(15, 0x03), (2, 0x05)])) (fun t => t.getV 15 == 0x01) = true ∧
    one 0x81F7 (r0 [(1, 0x03), (15, 0x05)]) (fun t => t.getV 1 == 0xFE && t.getV 15 == 0x01) = true ∧
    one 0x81F7 (flagLast (r0 [(1, 0x03), (15, 0x05)]))
      (fun t => t.getV 1 == 0x02 && t.getV 15 == 0x01) = true := by
  decide
/-- AV33, AV34. -/
theorem test_shl :
    one 0x810E (r0 [(1, 0x81)]) (fun t => t.getV 1 == 0x02 && t.getV 15 == 0x01) = true ∧
    one 0x810E (r0 [(1, 0x40)]) (fun t => t.getV 1 == 0x80 && t.getV 15 == 0x00) = true := by
  decide
/-- AV36. -/
theorem test_shl_vf :
    one 0x8F0E (r0 [(15, 0x81)]) (fun t => t.getV 15 == 0x02) = true ∧
    one 0x8F0E (flagLast (r0 [(15, 0x81)])) (fun t => t.getV 15 == 0x01) = true := by
  decide
/-- AV38 to AV40 leave the byte free: what R120 fixes is that the draw is masked and taken. -/
theorem test_rnd (b : Byte) (h : Config.draw 0 = b) :
    ∃ t, exec (.rnd 1 0x0F) State.reset = .next t ∧ t.getV 1 = b &&& 0x0F ∧ t.drawIndex = 1 := by
  subst h
  exact ⟨_, rfl, rfl, rfl⟩

/-- CV4. -/
theorem test_ret :
    one 0x00EE { State.reset with sp := 1, stack := State.reset.stack.set 0 0x0202, pc := 0x300 }
      (fun t => t.sp == 0 && t.pc == 0x0202 && t.stack[0] == 0x0202) = true := by decide
/-- CV5. -/
theorem test_ret_underflow :
    one 0x00EE State.reset (fun t => latch t == [3, 0x00EE, 0x0200, 0] && t.pc == 0x200) = true := by
  decide
/-- CV1. -/
theorem test_jp : one 0x1ABC State.reset (fun t => t.pc == 0x0ABC) = true := by decide
/-- CV3, CV7. -/
theorem test_call :
    one 0x2300 State.reset (fun t => t.stack[0] == 0x0202 && t.sp == 1 && t.pc == 0x0300) = true ∧
    one 0x2300 { State.reset with pc := 0xFFE }
      (fun t => t.stack[0] == 0x1000 && t.sp == 1 && t.pc == 0x0300) = true := by decide
/-- CV6. -/
theorem test_call_overflow :
    one 0x2400 { State.reset with sp := 16, pc := 0x250 }
      (fun t => latch t == [2, 0x2400, 0x0250, 0] && t.sp == 16) = true := by decide
/-- CV8. -/
theorem test_seImm :
    one 0x3112 (r0 [(1, 0x12)]) (fun t => t.pc == 0x0204) = true ∧
    one 0x3113 (r0 [(1, 0x12)]) (fun t => t.pc == 0x0202) = true := by decide
/-- CV9. -/
theorem test_sneImm :
    one 0x4113 (r0 [(1, 0x12)]) (fun t => t.pc == 0x0204) = true ∧
    one 0x4112 (r0 [(1, 0x12)]) (fun t => t.pc == 0x0202) = true := by decide
/-- CV10. -/
theorem test_seReg :
    one 0x5120 (r0 [(1, 0x07), (2, 0x07)]) (fun t => t.pc == 0x0204) = true ∧
    one 0x5120 (r0 [(1, 0x07), (2, 0x08)]) (fun t => t.pc == 0x0202) = true := by decide
/-- CV12. -/
theorem test_sneReg :
    one 0x9120 (r0 [(1, 0x07), (2, 0x08)]) (fun t => t.pc == 0x0204) = true ∧
    one 0x9120 (r0 [(1, 0x07), (2, 0x07)]) (fun t => t.pc == 0x0202) = true := by decide
/-- CV16, CV19. -/
theorem test_skp :
    one 0xE19E (keyDown 5 (r0 [(1, 0x05)])) (fun t => t.pc == 0x0204) = true ∧
    one 0xE19E (r0 [(1, 0x05)]) (fun t => t.pc == 0x0202) = true ∧
    one 0xE19E (keyDown 15 (r0 [(1, 0x0F)])) (fun t => t.pc == 0x0204) = true := by decide
/-- CV18. -/
theorem test_skp_key_fault :
    one 0xE19E (r0 [(1, 0x10)]) (fun t => latch t == [5, 0xE19E, 0x0200, 0]) = true := by decide
/-- CV17. -/
theorem test_sknp :
    one 0xE1A1 (r0 [(1, 0x05)]) (fun t => t.pc == 0x0204) = true ∧
    one 0xE1A1 (keyDown 5 (r0 [(1, 0x05)])) (fun t => t.pc == 0x0202) = true := by decide
/-- CV20. -/
theorem test_sknp_key_fault :
    one 0xE1A1 (r0 [(1, 0xFF)]) (fun t => latch t == [5, 0xE1A1, 0x0200, 0]) = true := by decide

/-- DV1. -/
theorem test_cls :
    one 0x00E0 { State.reset with fb := (FrameBuffer.clear.toggle 3 4).toggle 63 31 }
      (fun t => litCount t == 0 && t.redraw) = true := by decide
/-- DV3: the glyph of 0. -/
theorem test_drw_glyph :
    one 0xD015 State.reset (fun t =>
      lit t [(0, 0), (3, 0), (4, 0), (0, 1), (1, 1), (3, 1), (2, 4), (3, 4), (0, 5)]
        == [true, true, false, true, false, true, true, true, false] &&
      litCount t == 14 && t.getV 15 == 0x00 && t.redraw) = true := by decide
/-- DV4 (wrap), DV6 (collision), DV11 (Vx = VF). -/
theorem test_drw_wrap_and_collision :
    one 0xD011 ({ r0 [(0, 0x3E), (1, 0x1F)] with i := 0x300 }.storeBytes 0x300 [0xFF]) (fun t =>
      lit t [(62, 31), (63, 31), (0, 31), (5, 31), (6, 31)] == [true, true, true, true, false] &&
      litCount t == 8) = true ∧
    one 0xD011 ({ State.reset with i := 0x300, fb := FrameBuffer.clear.toggle 0 0 }.storeBytes 0x300
      [0x80]) (fun t => litCount t == 0 && t.getV 15 == 0x01) = true ∧
    one 0xDF11 ({ r0 [(15, 0x05)] with i := 0x300 }.storeBytes 0x300 [0x80])
      (fun t => lit t [(5, 0)] == [true] && t.getV 15 == 0x00) = true := by decide
/-- DV8, DV9. -/
theorem test_drw_rows_and_bounds :
    one 0xD010 { r0 [(15, 0x55)] with i := 0xFFFF }
      (fun t => t.getV 15 == 0x00 && t.redraw && latch t == []) = true ∧
    one 0xD013 { r0 [(15, 0x55)] with i := 0x0FFE } (fun t =>
      latch t == [4, 0xD013, 0x0200, 0x1000] && t.getV 15 == 0x55 && !t.redraw) = true := by decide

/-- MV1. -/
theorem test_ldI : one 0xA123 State.reset (fun t => t.i == 0x0123) = true := by decide
/-- MV3, MV4. -/
theorem test_addI :
    one 0xF11E { r0 [(1, 0x01)] with i := 0x0FFF } (fun t => t.i == 0x1000 && t.getV 15 == 0) = true ∧
    one 0xF11E { r0 [(1, 0x02)] with i := 0xFFFF } (fun t => t.i == 0x0001) = true := by decide
/-- MV5. -/
theorem test_ldF :
    one 0xF129 (r0 [(1, 0x0F)]) (fun t => t.i == 0x004B) = true ∧
    one 0xF129 (r0 [(1, 0xFF)]) (fun t => t.i == 0x04FB) = true := by decide
/-- MV6, MV8. -/
theorem test_bcd :
    one 0xF033 { r0 [(0, 0x94)] with i := 0x300 }
      (fun t => t.loadBytes 0x300 3 == [0x01, 0x04, 0x08] && t.i == 0x300) = true ∧
    one 0xF033 { r0 [(0, 0xFF)] with i := 0xFFD }
      (fun t => t.loadBytes 0xFFD 3 == [0x02, 0x05, 0x05]) = true := by decide
/-- MV9. -/
theorem test_bcd_bounds :
    one 0xF033 { r0 [(0, 0xFF)] with i := 0xFFE } (fun t =>
      latch t == [4, 0xF033, 0x0200, 0x1000] && t.loadBytes 0xFFE 2 == [0x00, 0x00]) = true := by decide
/-- MV10. -/
theorem test_store :
    one 0xF255 { r0 [(0, 1), (1, 2), (2, 3)] with i := 0x300 }
      (fun t => t.loadBytes 0x300 3 == [1, 2, 3] && t.i == 0x300) = true ∧
    one 0xF255 (moving { r0 [(0, 1), (1, 2), (2, 3)] with i := 0x300 })
      (fun t => t.loadBytes 0x300 3 == [1, 2, 3] && t.i == 0x303) = true := by decide
/-- MV13. -/
theorem test_store_bounds :
    one 0xFF55 { r0 [(15, 0x77)] with i := 0xFF0 } (fun t => t.readByte 0xFFF == 0x77) = true ∧
    one 0xFF55 { r0 [(0, 0x77)] with i := 0xFF1 } (fun t =>
      latch t == [4, 0xFF55, 0x0200, 0x1000] && t.readByte 0xFF1 == 0x00) = true := by decide
/-- MV15. -/
theorem test_load :
    one 0xF265 ({ r0 [(3, 0x99)] with i := 0x300 }.storeBytes 0x300 [1, 4, 8]) (fun t =>
      t.getV 0 == 1 && t.getV 1 == 4 && t.getV 2 == 8 && t.getV 3 == 0x99 && t.i == 0x300) = true ∧
    one 0xF265 (moving { State.reset with i := 0x300 }) (fun t => t.i == 0x303) = true := by decide
/-- MV17. -/
theorem test_load_bounds :
    one 0xF165 { r0 [(0, 0x77)] with i := 0xFFF } (fun t =>
      latch t == [4, 0xF165, 0x0200, 0x1000] && t.getV 0 == 0x77) = true := by decide

/-- TV1. -/
theorem test_ldDtV : one 0xF115 (r0 [(1, 0x3C)]) (fun t => t.dt == 0x3C) = true := by decide
/-- TV2. -/
theorem test_ldVDt : one 0xF307 { State.reset with dt := 0x3C } (fun t => t.getV 3 == 0x3C) = true := by
  decide
/-- TV3. -/
theorem test_ldStV : one 0xF118 (r0 [(1, 0x02)]) (fun t => t.st == 0x02 && !t.tone) = true := by decide
/-- TV5, TV6. -/
theorem test_ldVK :
    one 0xF20A (waiting (keyDown 7 (keyDown 9 State.reset)))
      (fun t => t.getV 2 == 0x07 && t.pc == 0x0202) = true ∧
    one 0xF20A (waiting State.reset) (fun t => t.pc == 0x0200 && latch t == []) = true := by decide
/-- FV8. -/
theorem test_ldVK_fault_mode :
    one 0xF20A State.reset (fun t => latch t == [1, 0xF20A, 0x0200, 0]) = true := by decide

/-! ### Fetch, faults, the host's ports -/

/-- FV1, FV3. -/
theorem test_invalid_word :
    one 0x0000 State.reset (fun t => latch t == [1, 0x0000, 0x0200, 0]) = true ∧
    one 0x0123 State.reset (fun t => latch t == [1, 0x0123, 0x0200, 0]) = true := by decide
/-- FV9, FV12. -/
theorem test_fetch_last_word_and_odd_pc :
    one 0x6011 { State.reset with pc := 0xFFE } (fun t => t.getV 0 == 0x11 && t.pc == 0x1000) = true ∧
    one 0x637E { State.reset with pc := 0x201 } (fun t => t.getV 3 == 0x7E && t.pc == 0x203) = true := by
  decide
/-- FV10, FV11. -/
theorem test_fetch_outside :
    holds (step { State.reset with pc := 0x1000 }) (fun t => latch t == [4, 0, 0x1000, 0x1000]) = true ∧
    holds (step { State.reset with pc := 0x0FFF }) (fun t => latch t == [4, 0, 0x0FFF, 0x1000]) = true := by
  decide

/-- A halted core, as FV13 and SV5 have it. -/
def halted : State :=
  { State.reset with
    pc := 0x202
    dt := 5
    st := 1
    fault := some ⟨.invalidInstruction, 0x0000, 0x0202, 0x0000⟩ }

/-- FV13, SV5. -/
theorem test_halted :
    step halted = .fault (.halted ⟨.invalidInstruction, 0x0000, 0x0202, 0x0000⟩) ∧ tick halted = halted :=
  ⟨rfl, rfl⟩
/-- SV1, SV2, SV3. -/
theorem test_tick :
    ((fun t : State => (t.dt, t.st, t.tone)) (tick { State.reset with dt := 2, st := 1 })
      = (1, 0, true)) ∧
    ((fun t : State => (t.dt, t.st, t.tone)) (tick { State.reset with tone := true })
      = (0, 0, false)) ∧
    ((fun t : State => (t.dt, t.st, t.tone)) (tick { State.reset with st := 2 }) = (0, 1, false)) := by
  decide
/-- SV6, SV7, SV8. -/
theorem test_batch_size :
    batchSize Config.defaults 5 1000 = 3 ∧ batchSize Config.defaults 0 1 = 0 ∧
    batchSize { Config.defaults with ipsNum := 1 } 5 2 = 3 ∧
    batchSize { Config.defaults with ipsNum := 1, round := .halfEven } 5 2 = 2 := by decide
/-- SV9. -/
theorem test_step_call_fault :
    (match stepCall 3 ({ State.reset with dt := 5 }.storeBytes 0x200 [0x60, 0x01, 0x00, 0x00]) with
      | .faulted r t => t.getV 0 == 0x01 && latch t == [1, 0x0000, 0x0202, 0] && t.dt == 5 &&
          t.fault == some r
      | .ok _ => false
      | .refused _ => false) = true := by decide
/-- RV1. -/
theorem test_reset_memory :
    State.reset.loadBytes 0x000 5 = [0xF0, 0x90, 0x90, 0x90, 0xF0] ∧
    State.reset.loadBytes 0x04B 5 = [0xF0, 0x80, 0xF0, 0x80, 0x80] ∧
    State.reset.readByte 0x050 = 0x00 ∧ State.reset.readByte 0x200 = 0x00 := by decide
/-- RV4. -/
theorem test_unloaded_core :
    holds (step State.reset) (fun t => latch t == [1, 0x0000, 0x0200, 0]) = true := by decide
/-- The image of P1 is loaded at 0x200 (R243). -/
theorem test_load_port :
    holds (step { State.reset with strobes := [.load [0x60, 0x05, 0x61, 0x03, 0x80, 0x14]] })
      (fun t => t.loadBytes 0x1FF 8 == [0x00, 0x60, 0x05, 0x61, 0x03, 0x80, 0x14, 0x00] && t.loaded)
      = true := by decide
/-- RV3: 3585 bytes are rejected. -/
theorem test_load_port_too_large :
    loadPort (List.replicate 3585 0x00) State.reset = .programTooLarge := by
  simp only [loadPort, List.length_replicate]
  decide
/-- A second load is outside the host's contract (U19). -/
theorem test_load_port_twice :
    step { State.reset with loaded := true, strobes := [.load []] } = .refused .loadOutsideContract := rfl
/-- R230, D23: bit y * 64 + x of the frame-buffer port is cell (x, y). -/
theorem test_frame_buffer_port :
    (frameBufferPort { State.reset with fb := FrameBuffer.clear.toggle 3 2 })[131]? = some true := by
  simp only [frameBufferPort, List.getElem?_map, List.getElem?_range (by decide : 131 < 2048)]
  decide
/-- A row's word, its step and its decoding agree. -/
theorem test_fetch_word :
    one 0x8014 (r0 [(0, 5), (1, 3)]) (fun t => t.getV 0 == 0x08 && t.getV 15 == 0 && t.pc == 0x202)
      = true := by decide

/-! ### Witnesses: a concrete state and operands that meet the hypotheses of each obligation that has
some, at the boundary values of each clause -/

theorem witness_DecodeInvertsEncode :
    Instr.wellFormed .fault .cls = true ∧ Instr.wellFormed .wait (.ldVK 15) = true := by decide
theorem witness_EncodeInvertsDecode :
    decode .fault 0xFFFF = .error .byteF ∧ decode .wait 0xFF0A = .ok (.ldVK 15) := by decide
theorem witness_FetchIsBigEndianAndChecked :
    ({ State.reset with pc := 0xFFE } : State).pc.toNat ≤ 0xFFE ∧
    ({ State.reset with pc := 0xFFF } : State).pc.toNat = 0xFFF ∧
    0xFFF < ({ State.reset with pc := 0x1000 } : State).pc.toNat := by decide

/-- The reset state with a word at PC. -/
def placed (w : Nat) (s : State) : State := s.withFetchWord 16 w

theorem witness_StepRunsDecodedInstruction :
    let s := placed 0x63AB { State.reset with pc := 0xFFE }
    let u := { s with strobes := [.exec, .tick] }
    (s.fault = none ∧ s.pc.toNat ≤ 0xFFE ∧
      decode s.cfg.fx0aMode
        (wordOfBytes (s.readByte s.pc.toNat) (s.readByte (s.pc.toNat + 1))) = .ok (.ldImm 3 0xAB) ∧
      s.strobes = []) ∧
    (u.fault = none ∧ u.pc.toNat ≤ 0xFFE ∧
      decode u.cfg.fx0aMode
        (wordOfBytes (u.readByte u.pc.toNat) (u.readByte (u.pc.toNat + 1))) = .ok (.ldImm 3 0xAB) ∧
      u.strobes = .exec :: [.tick]) := by decide
theorem witness_PlacedWordRunsNext :
    let s : State := { State.reset with pc := 0xFFF, mem := [(0x300, 0x01)] }
    Memory.wf s.cfg s.mem = true ∧ decode s.cfg.fx0aMode 0x63AB = .ok (.ldImm 3 0xAB) := by decide
theorem witness_FetchOutsideMemoryFaults :
    let s : State := { State.reset with pc := 0xFFF }
    let u : State := { State.reset with pc := 0xFFFF }
    (s.strobes = [] ∧ s.fault = none ∧ 0xFFE < s.pc.toNat) ∧
    (u.strobes = [] ∧ u.fault = none ∧ 0xFFE < u.pc.toNat) := by decide
theorem witness_InvalidWordFaults :
    let s := placed 0xB123 State.reset
    s.strobes = [] ∧ s.fault = none ∧ s.pc.toNat ≤ 0xFFE ∧
    InvalidWord s.cfg.fx0aMode
      (wordOfBytes (s.readByte s.pc.toNat) (s.readByte (s.pc.toNat + 1))) := by
  simp only [InvalidWord]
  decide
theorem witness_HaltedCoreChangesNothing :
    halted.fault = some ⟨.invalidInstruction, 0x0000, 0x0202, 0x0000⟩ := by decide

/-- Every fault kind of R200 that an instruction raises has a cause, at the edge of its range, and just
inside the edge there is none. -/
theorem witness_FaultsExactlyWhenTheRulesSay :
    State.reset.fault = none ∧
    faultCause .ret State.reset = some .stackUnderflow ∧
    faultCause .ret { State.reset with sp := 1 } = none ∧
    faultCause (.call 0x300) { State.reset with sp := 16 } = some .stackOverflow ∧
    faultCause (.call 0x300) { State.reset with sp := 15 } = none ∧
    faultCause (.skp 1) (r0 [(1, 0x10)]) = some .keyIndexFault ∧
    faultCause (.skp 1) (r0 [(1, 0x0F)]) = none ∧
    faultCause (.drw 0 0 1) { State.reset with i := 0x1000 } = some .memoryFault ∧
    faultCause (.drw 0 0 1) { State.reset with i := 0x0FFF } = none ∧
    faultCause (.drw 0 0 0) { State.reset with i := 0xFFFF } = none ∧
    faultCause (.bcd 0) { State.reset with i := 0xFFE } = some .memoryFault ∧
    faultCause (.bcd 0) { State.reset with i := 0xFFD } = none ∧
    faultCause (.store 15) { State.reset with i := 0xFF1 } = some .memoryFault ∧
    faultCause (.store 15) { State.reset with i := 0xFF0 } = none ∧
    faultCause (.load 0) { State.reset with i := 0x1000 } = some .memoryFault ∧
    faultCause (.load 0) { State.reset with i := 0xFFF } = none ∧
    faultCause (.ldVK 0) State.reset = some .invalidInstruction ∧
    faultCause (.ldVK 0) (waiting State.reset) = none := by decide
theorem witness_InstructionFaultsArePrecise :
    (∃ t r, exec .ret State.reset = .next t ∧ State.reset.fault = none ∧ t.fault = some r) ∧
    (∃ t r, exec (.store 15) { State.reset with i := 0xFF1 } = .next t ∧ State.reset.fault = none ∧
      t.fault = some r ∧ r.kind = .memoryFault) :=
  ⟨⟨_, _, rfl, rfl, rfl⟩, ⟨_, _, rfl, rfl, rfl, rfl⟩⟩
theorem witness_AccessOutsideMemoryFaults :
    State.reset.fault = none ∧
    (0 < (3 : BitVec 4).toNat ∧ 0xFFF < (0xFFE : Word).toNat + (3 : BitVec 4).toNat - 1) ∧
    0xFFF < (0xFFE : Word).toNat + 2 ∧
    0xFFF < (0xFF1 : Word).toNat + (15 : Reg).val ∧
    0xFFF < (0x1000 : Word).toNat + (0 : Reg).val := by decide
theorem witness_OnlyListedRegistersAreWritten :
    ∃ t, exec (.addReg 1 2) (r0 [(1, 0xFF), (2, 0x02)]) = .next t ∧
      writesReg (.addReg 1 2) 2 = false ∧ writesReg (.load 2) 3 = false :=
  ⟨_, rfl, by decide⟩
/-- A store of three bytes at 0x300: the bytes just outside it. -/
theorem witness_OnlyStoredBytesChange :
    let s : State := { r0 [(0, 1), (1, 2), (2, 3)] with i := 0x300 }
    Memory.wf s.cfg s.mem = true ∧ (∃ t, exec (.store 2) s = .next t) ∧
    ¬ (s.indexAddr ≤ 0x2FF ∧ 0x2FF < s.indexAddr + bytesStored (.store 2)) ∧
    ¬ (s.indexAddr ≤ 0x303 ∧ 0x303 < s.indexAddr + bytesStored (.store 2)) :=
  ⟨by decide, ⟨_, rfl⟩, by decide, by decide⟩
theorem witness_OnlyListedInstructionsWriteSpecialState :
    (∃ t, exec .cls State.reset = .next t) ∧ writesIndex Config.defaults .cls = false ∧
    usesStack .cls = false ∧ writesDelay .cls = false ∧ writesSound .cls = false ∧
    usesDisplay (.jp 0x300) = false ∧ drawsRandom (.rnd 0 0) = true :=
  ⟨⟨_, rfl⟩, by decide⟩
theorem witness_FlagOrderMattersOnlyForVf :
    (1 : Reg) ≠ vf ∧ (14 : Reg) ≠ vf ∧
    Instr.sub 1 14 ∈ [Instr.addReg 1 14, .sub 1 14, .shr 1 14, .subn 1 14, .shl 1 14] := by decide
theorem witness_ReturnPopsTheStack :
    0 < ({ State.reset with sp := 1 } : State).sp.val ∧
    0 < ({ State.reset with sp := 16 } : State).sp.val ∧
    State.reset.sp = 0 ∧ State.reset.fault = none := by decide
theorem witness_CallPushesTheNextAddress :
    State.reset.sp.val < 16 ∧ ({ State.reset with sp := 15 } : State).sp.val < 16 ∧
    ({ State.reset with sp := 16 } : State).sp = 16 ∧
    ({ State.reset with sp := 16 } : State).fault = none := by decide
/-- The call itself leaves such a state, from the shallowest and from the deepest stack. -/
theorem witness_ReturnResumesAfterTheCall :
    State.reset.sp.val < 16 ∧ ({ State.reset with sp := 15 } : State).sp.val < 16 ∧
    ∃ t u, exec (.call 0x300) State.reset = .next t ∧ exec .cls t = .next u ∧ u.sp = t.sp ∧
      u.stack = t.stack :=
  ⟨by decide, by decide, _, _, rfl, rfl, rfl, rfl⟩
theorem witness_SeventeenthCallOverflows :
    State.reset.sp = 0 ∧ State.reset.fault = none ∧
    (List.replicate 16 (0x200 : BitVec 12)).length = 16 := by decide
theorem witness_SkipOnKey :
    ((r0 [(1, 0x0F)]).getV 1).toNat < 16 ∧ 15 < ((r0 [(1, 0x10)]).getV 1).toNat ∧
    (r0 [(1, 0x10)]).fault = none := by decide
theorem witness_DrawFlipsTheSpriteCells :
    (0 : BitVec 4).toNat = 0 ∧ (0xFF1 : Word).toNat + (15 : BitVec 4).toNat - 1 ≤ 0xFFF := by decide
/-- The glyph of 0 drawn twice at (0, 0). -/
theorem witness_DrawTwiceRestoresTheScreen :
    ∃ t, State.reset.i.toNat + (5 : BitVec 4).toNat - 1 ≤ 0xFFF ∧
      exec (.drw 0 1 5) State.reset = .next t ∧
      let u := t
      u.fb = t.fb ∧ u.getV 0 = State.reset.getV 0 ∧ u.getV 1 = State.reset.getV 1 ∧
      u.i = State.reset.i ∧ ∀ a, u.readByte a = State.reset.readByte a :=
  ⟨_, by decide, rfl, rfl, rfl, rfl, rfl, fun _ => rfl⟩
theorem witness_BcdStoresThreeDigits :
    Memory.wf State.reset.cfg State.reset.mem = true ∧
    ({ State.reset with i := 0xFFD } : State).i.toNat + 2 ≤ 0xFFF := by decide
theorem witness_StoreWritesTheRegisters :
    Memory.wf State.reset.cfg State.reset.mem = true ∧
    ({ State.reset with i := 0xFF0 } : State).i.toNat + (15 : Reg).val ≤ 0xFFF ∧
    ({ State.reset with i := 0xFFF } : State).i.toNat + (0 : Reg).val ≤ 0xFFF := by decide
theorem witness_LoadReadsTheRegisters :
    ({ State.reset with i := 0xFF0 } : State).i.toNat + (15 : Reg).val ≤ 0xFFF ∧
    ({ State.reset with i := 0xFFF } : State).i.toNat + (0 : Reg).val ≤ 0xFFF := by decide
/-- P7: V0, V1 stored at 0x208, the word there fetched next. -/
theorem witness_FetchSeesStoredCode :
    let s : State := { r0 [(0, 0x62), (1, 0x77)] with i := 0x208 }
    Memory.wf s.cfg s.mem = true ∧ (0 : Reg) < 1 ∧ s.i.toNat + (1 : Reg).val ≤ 0xFFF ∧
    ∃ t, exec (.store 1) s = .next t ∧
      let u : State := { t with pc := 0x208 }
      u.mem = t.mem ∧ u.cfg = t.cfg ∧ u.pc.toNat = s.i.toNat + (0 : Reg).val :=
  ⟨by decide, by decide, by decide, _, rfl, rfl, rfl, rfl⟩
theorem witness_KeyWaitTakesTheLowestHeldKey :
    let s := waiting (keyDown 7 (keyDown 9 State.reset))
    (s.cfg.fx0aMode = .wait ∧ s.keyHeld 7 = true ∧ ∀ j, j < 7 → s.keyHeld j = false) ∧
    ((waiting State.reset).cfg.fx0aMode = .wait ∧ ∀ j, (waiting State.reset).keyHeld j = false) ∧
    (State.reset.cfg.fx0aMode = .fault ∧ State.reset.fault = none) := by decide
theorem witness_TickCountsDown :
    ({ State.reset with dt := 0, st := 1 } : State).fault = none ∧ halted.fault ≠ none := by decide
/-- A self-loop at 0x200: two execs and a tick. -/
theorem witness_StepCallIsItsStrobes :
    ∃ u, stepCall 2 (placed 0x1200 State.reset) = .ok u := ⟨_, rfl⟩
theorem witness_FaultEndsTheStepCall :
    (∃ r t, stepCall 3 State.reset = .faulted r t) ∧ (∃ r t, stepCall 0 halted = .faulted r t) :=
  ⟨⟨_, _, rfl⟩, ⟨_, _, rfl⟩⟩
/-- 5/2 at one instruction a second is an exact half, in either rounding. -/
theorem witness_BatchSizeIsTheNearestNumber :
    let p : Params := { Config.defaults with ipsNum := 1 }
    p.wellFormed = true ∧ 2 * (5 * p.ipsNum % (2 * p.ipsDen)) = 2 * p.ipsDen ∧
    p.round = .halfAwayFromZero ∧
    ({ p with round := .halfEven } : Params).wellFormed = true ∧
    ({ p with round := .halfEven } : Params).round = .halfEven := by decide
theorem witness_LoadWritesTheImage :
    Memory.wf State.reset.cfg State.reset.mem = true ∧ State.reset.loaded = false ∧
    State.reset.fault = none ∧ (List.replicate 3584 (0x00 : Byte)).length ≤ 3584 :=
  ⟨by decide, by decide, by decide, by rw [List.length_replicate]⟩
theorem witness_LoadRejectsAndRefuses :
    let s : State := { State.reset with strobes := .load (List.replicate 3585 0x00) :: [] }
    (s.loaded = false ∧ s.fault = none ∧ 3584 < (List.replicate 3585 (0x00 : Byte)).length) ∧
    ({ s with loaded := true } : State).loaded = true ∧ halted.fault ≠ none :=
  ⟨⟨rfl, rfl, by rw [List.length_replicate]; decide⟩, rfl, by decide⟩
theorem witness_HostEventsChangeOneBit :
    ({ halted with strobes := [.keyDown 0] } : State).strobes = .keyDown 0 :: [] ∧
    ({ halted with strobes := [.keyUp 15] } : State).strobes = .keyUp 15 :: [] ∧
    ({ halted with strobes := [.redrawAck] } : State).strobes = .redrawAck :: [] := by decide
theorem witness_OutputPortsShowTheState :
    (63 : Nat) < 64 ∧ (31 : Nat) < 32 ∧ (4095 : Nat) < 4096 ∧ State.reset.fault = none ∧
    halted.fault = some ⟨.invalidInstruction, 0x0000, 0x0202, 0x0000⟩ := by decide
theorem witness_ResetState :
    (79 : Nat) < 80 ∧ (15 : Nat) < 16 ∧ Config.defaults.fontBase.toNat + 80 ≤ 80 := by decide
theorem witness_ResetStrobeResets :
    ({ halted with strobes := [.reset, .exec] } : State).strobes = .reset :: [.exec] := by decide
theorem witness_UnloadedCoreFaultsAtOnce :
    Params.wellFormed { Config.defaults with fontBase := 0x1B0 } = true := by decide
/-- The reset state meets the invariant and has a next state. -/
theorem witness_StepKeepsTheInvariant :
    State.reset.Inv ∧ ∃ t, step State.reset = .next t :=
  ⟨⟨by decide, by decide, by decide, by decide, fun _ => ⟨rfl, rfl, rfl, rfl, rfl, rfl, rfl, rfl⟩,
    fun _ h => by cases h⟩, _, rfl⟩
theorem witness_ResetMeetsTheInvariant : Config.defaults.wellFormed = true := by decide

end Sys2Proof.Tests
end

section
/-! PROOFS. Every step keeps the invariant (O58): what an executed instruction can do is said once, as one
of seven effects, and the invariant is kept by each effect and by each strobe of the host. -/

namespace Sys2Proof.Machine

/-! ### States that differ in no field the invariant reads in a loaded core -/

/-- From `s` to `u` the parameters, Loaded, FAULT, PC and the stack stay, and memory stays canonical. -/
structure State.Keeps (s u : State) : Prop where
  cfg    : u.cfg = s.cfg
  loaded : u.loaded = s.loaded
  fault  : u.fault = s.fault
  pc     : u.pc = s.pc
  stack  : u.stack = s.stack
  memory : Memory.wf s.cfg s.mem = true → Memory.wf s.cfg u.mem = true

theorem State.keeps_setV (s : State) (x : Reg) (b : Byte) : s.Keeps (s.setV x b) :=
  ⟨rfl, rfl, rfl, rfl, rfl, id⟩

theorem State.keeps_writeFlagged (s : State) (x : Reg) (f : Byte) (g : State → Byte) :
    s.Keeps (s.writeFlagged x f g) := by
  constructor <;> simp

theorem State.keeps_loadRegs (s : State) (base n : Nat) : s.Keeps (s.loadRegs base n) := by
  constructor <;> simp

/-- Storing bytes at addresses that the range check admits. -/
theorem State.keeps_storeBytes (s : State) {a : Nat} {bs : List Byte}
    (h : checkRange a bs.length = none) : s.Keeps (s.storeBytes a bs) := by
  constructor
  case memory =>
    intro hm
    rcases (checkRange_eq_none_iff a bs.length).1 h with h0 | hle
    · rw [List.length_eq_zero_iff.1 h0]
      exact hm
    · exact State.wf_storeBytes hm hle
  all_goals simp

theorem State.Keeps.bumpIndex {s u : State} (h : s.Keeps u) (x : Reg) : s.Keeps (u.bumpIndex x) := by
  obtain ⟨hcfg, hloaded, hfault, hpc, hstack, hmem⟩ := h
  constructor <;> simpa

/-! ### What an executed instruction can do -/

/-- The address that a record of this kind may hold: outside memory for a MemoryFault, 0 for every other
kind (R204). -/
def FaultKind.admits (k : FaultKind) (a : Nat) : Prop :=
  if k = .memoryFault then 0xFFF < a ∧ a < 0x10000 else a = 0

/-- The effects of an instruction executed in `s`, as far as the invariant can tell them apart. -/
inductive ExecEffect (s : State) : State → Prop
  /-- A fault is latched and nothing else changes (R204). -/
  | fault {k : FaultKind} {a : Nat} (w : Word) (ha : k.admits a) : ExecEffect s (s.raise k w a)
  /-- `Fx0A` waits for a key (R181). -/
  | wait : ExecEffect s s
  /-- The instruction completes and PC goes on to the next word (R81). -/
  | advance {u : State} (hu : s.Keeps u) : ExecEffect s u.advance
  /-- A conditional skip (R81). -/
  | skipIf (c : Bool) : ExecEffect s (s.skipIf c)
  | jump (nnn : BitVec 12) : ExecEffect s (s.setPc (zext16 nnn))
  | call {u : State} (nnn : BitVec 12) (hu : s.push (s.pc + 2) = some u) :
      ExecEffect s (u.setPc (zext16 nnn))
  | ret {a : Word} {u : State} (hu : s.pop = some (a, u)) : ExecEffect s (u.setPc a)

/-- The address that a failing range check reports is one that a MemoryFault may hold. -/
theorem FaultKind.admits_of_checkRange {base : Word} {n a : Nat}
    (h : checkRange base.toNat n = some a) : FaultKind.memoryFault.admits a := by
  have hbase := base.isLt
  rw [checkRange_eq] at h
  split at h
  · cases h
  · obtain rfl := Option.some.inj h
    simp only [FaultKind.admits, if_true]
    omega

/-- The form of every access to memory at I: a failing range check latches a MemoryFault, a passing one
lets the access be made (R59, D7). -/
theorem ExecEffect.of_checkRange {s t : State} {n : Nat} {w : Word} {u : State}
    (h : (match checkRange s.indexAddr n with
      | some a => .next (s.raise .memoryFault w a)
      | none => .next u.advance : Result) = .next t)
    (hu : checkRange s.indexAddr n = none → s.Keeps u) : ExecEffect s t := by
  cases hc : checkRange s.indexAddr n with
  | some a =>
    rw [hc] at h
    cases h
    exact .fault w (FaultKind.admits_of_checkRange hc)
  | none =>
    rw [hc] at h
    cases h
    exact .advance (hu hc)

/-- The form of both key skips: a register value above 15 latches a KeyIndexFault (R137, R138). -/
theorem ExecEffect.of_keyId {s t : State} {b : Byte} {w : Word} {c : Reg → Bool}
    (h : (match keyId b with
      | some k => .next (s.skipIf (c k))
      | none => .next (s.raise .keyIndexFault w 0) : Result) = .next t) : ExecEffect s t := by
  cases hk : keyId b with
  | some k =>
    rw [hk] at h
    cases h
    exact .skipIf (c k)
  | none =>
    rw [hk] at h
    cases h
    exact .fault w rfl

theorem ExecEffect.of_execRet {s t : State} (h : execRet s = .next t) : ExecEffect s t := by
  unfold execRet at h
  cases hp : s.pop with
  | some p =>
    rw [hp] at h
    cases h
    exact .ret hp
  | none =>
    rw [hp] at h
    cases h
    exact .fault _ rfl

theorem ExecEffect.of_execCall {s t : State} {nnn : BitVec 12} (h : execCall nnn s = .next t) :
    ExecEffect s t := by
  unfold execCall at h
  cases hp : s.push (s.pc + 2) with
  | some u =>
    rw [hp] at h
    cases h
    exact .call nnn hp
  | none =>
    rw [hp] at h
    cases h
    exact .fault _ rfl

theorem ExecEffect.of_execLdVK {s t : State} {x : Reg} (h : execLdVK x s = .next t) :
    ExecEffect s t := by
  unfold execLdVK at h
  split at h
  · split at h
    · cases h
      exact .advance (s.keeps_setV x _)
    · cases h
      exact .wait
  · cases h
    exact .fault _ rfl

/-- An instruction that answers a next state has one of the effects. -/
theorem exec_effect {i : Instr} {s t : State} (h : exec i s = .next t) : ExecEffect s t := by
  cases i with
  | ret => exact .of_execRet h
  | call nnn => exact .of_execCall h
  | ldVK x => exact .of_execLdVK h
  | jp nnn => cases h; exact .jump nnn
  | seImm x nn | sneImm x nn | seReg x y | sneReg x y => cases h; exact .skipIf _
  | skp x | sknp x => exact .of_keyId h
  | ldImm x nn | addImm x nn | ldReg x y | or x y | and x y | xor x y | ldVDt x =>
    cases h; exact .advance (s.keeps_setV x _)
  | sub x y | shr x y | subn x y | shl x y => cases h; exact .advance (s.keeps_writeFlagged x _ _)
  | addReg x y | rnd x nn | cls | ldI nnn | addI x | ldF x | ldDtV x | ldStV x =>
    cases h; exact .advance ⟨rfl, rfl, rfl, rfl, rfl, id⟩
  | drw x y n => exact .of_checkRange h fun _ => ⟨rfl, rfl, rfl, rfl, rfl, id⟩
  | bcd x => exact .of_checkRange h fun hc => s.keeps_storeBytes hc
  | store x =>
    refine .of_checkRange h fun hc => (s.keeps_storeBytes ?_).bumpIndex x
    rwa [State.regsUpTo_length]
  | load x => exact .of_checkRange h fun _ => (s.keeps_loadRegs _ _).bumpIndex x

/-! ### The operations that keep the invariant -/

/-- A state that differs in no field the invariant reads in a loaded core, and is untouched if it is still
unloaded. -/
theorem State.Inv.of_keeps {s u : State} (hs : s.Inv) (hu : s.Keeps u)
    (hunt : s.loaded = false → s.untouched → u.untouched) : u.Inv := by
  obtain ⟨hcfg, hloaded, hfault, hpc, hstack, hmem⟩ := hu
  constructor
  case params => rw [hcfg]; exact hs.params
  case memory => rw [hcfg]; exact hmem hs.memory
  case pc => rw [hpc]; exact hs.pc
  case stack => rw [hstack]; exact hs.stack
  case unloaded => rw [hloaded]; exact fun h => hunt h (hs.unloaded h)
  case latch =>
    rw [hfault]
    intro r hr
    rw [FaultRecord.agrees, hpc]
    exact hs.latch r hr

/-- Taking a fault in a running core (R204). -/
theorem State.Inv.raise {s : State} (hs : s.Inv) (hf : s.fault = none) {k : FaultKind} {a : Nat}
    (w : Word) (ha : k.admits a) : (s.raise k w a).Inv where
  params := hs.params
  memory := hs.memory
  pc := hs.pc
  stack := hs.stack
  unloaded := hs.unloaded
  latch := by
    intro r hr
    rw [State.raise_fault, hf, Option.getD_none] at hr
    obtain rfl := Option.some.inj hr
    refine ⟨rfl, ?_⟩
    unfold FaultKind.admits at ha
    dsimp only
    split
    case isTrue hk =>
      rw [if_pos hk] at ha
      rw [BitVec.toNat_ofNat, Nat.mod_eq_of_lt ha.2]
      exact ha.1
    case isFalse hk =>
      rw [if_neg hk] at ha
      subst ha
      rfl

/-- A jump of a loaded, running core to an address that cannot have wrapped. -/
theorem State.Inv.setPc {s : State} (hs : s.Inv) (hl : s.loaded = true) (hf : s.fault = none)
    {a : Word} (ha : a.toNat ≤ 0x1002) : (s.setPc a).Inv where
  params := hs.params
  memory := hs.memory
  pc := ha
  stack := hs.stack
  unloaded := fun h => by rw [State.setPc_loaded, hl] at h; cases h
  latch := fun r h => by rw [State.setPc_fault, hf] at h; cases h

theorem State.eq_of_push {s u : State} {a : Word} (h : s.push a = some u) :
    ∃ hsp : s.sp.val < 16,
      u = { s with stack := s.stack.set s.sp.val a, sp := ⟨s.sp.val + 1, by omega⟩ } := by
  by_cases hsp : s.sp.val < 16
  · rw [s.push_some a hsp] at h
    exact ⟨hsp, (Option.some.inj h).symm⟩
  · rw [s.push_none a hsp] at h
    cases h

theorem State.eq_of_pop {s u : State} {a : Word} (h : s.pop = some (a, u)) :
    ∃ hsp : 0 < s.sp.val, a = s.stack[s.sp.val - 1]'(by omega) ∧
      u = { s with sp := ⟨s.sp.val - 1, by omega⟩ } := by
  by_cases hsp : 0 < s.sp.val
  · rw [s.pop_some hsp] at h
    cases h
    exact ⟨hsp, rfl, rfl⟩
  · rw [s.pop_none hsp] at h
    cases h

/-- A call of a loaded core pushes an address inside memory or just past it (R132). -/
theorem State.Inv.push {s u : State} (hs : s.Inv) (hl : s.loaded = true)
    {a : Word} (ha : a.toNat ≤ 0x1000) (hu : s.push a = some u) : u.Inv := by
  obtain ⟨hsp, rfl⟩ := State.eq_of_push hu
  constructor
  case params => exact hs.params
  case memory => exact hs.memory
  case pc => exact hs.pc
  case stack =>
    intro k hk
    dsimp only
    rw [Vector.getElem_set]
    split
    · exact ha
    · exact hs.stack k hk
  case unloaded => exact fun h => absurd (hl.symm.trans h) (by decide)
  case latch => exact hs.latch

theorem zext16_le (nnn : BitVec 12) : (zext16 nnn).toNat ≤ 0xFFF := by
  have := nnn.isLt
  rw [zext16, BitVec.toNat_setWidth]
  omega

/-! ### EXEC keeps the invariant -/

/-- An instruction fetched from inside memory in a loaded, running core. -/
theorem ExecEffect.inv {s t : State} (h : ExecEffect s t) (hs : s.Inv) (hl : s.loaded = true)
    (hf : s.fault = none) (hp : s.pc.toNat ≤ 0xFFE) : t.Inv := by
  have hloaded : ¬ s.loaded = false := by simp [hl]
  cases h with
  | fault w ha => exact hs.raise hf w ha
  | wait => exact hs
  | @advance u hu =>
    have hui : u.Inv := hs.of_keeps hu fun h => absurd h hloaded
    rw [← hu.pc] at hp
    exact hui.setPc (hu.loaded.trans hl) (hu.fault.trans hf) (by bv_omega)
  | skipIf c =>
    cases c
    case false => exact hs.setPc hl hf (by bv_omega)
    case true => exact hs.setPc hl hf (by bv_omega)
  | jump nnn => exact hs.setPc hl hf (by have := zext16_le nnn; omega)
  | call nnn hu =>
    have hui := hs.push hl (by bv_omega) hu
    obtain ⟨hsp, rfl⟩ := State.eq_of_push hu
    exact hui.setPc hl hf (by have := zext16_le nnn; omega)
  | ret hu =>
    obtain ⟨hsp, rfl, rfl⟩ := State.eq_of_pop hu
    have hui := hs.of_keeps (u := { s with sp := ⟨s.sp.val - 1, by omega⟩ })
      ⟨rfl, rfl, rfl, rfl, rfl, id⟩ fun h => absurd h hloaded
    exact hui.setPc hl hf (by have := hs.stack (s.sp.val - 1) (by omega); omega)

/-- An unloaded core fetches the word 0x0000, wherever its font lies (R245, D18). -/
theorem State.untouched.fetchedWord {s : State} (hu : s.untouched) (hp : s.cfg.wellFormed = true) :
    s.fetchedWord = 0x0000 := by
  obtain ⟨hmem, hpc, -⟩ := hu
  have hread : ∀ a, 0x200 ≤ a → s.readByte a = 0x00 := fun a ha => by
    rw [State.readByte, hmem, Memory.lookup, Option.getD_none, resetByte_past_font hp ha]
  rw [State.fetchedWord, hpc, hread _ (by decide), hread _ (by decide)]
  rfl

/-- So an EXEC that reaches the meaning of an instruction finds the core loaded. -/
theorem State.Inv.loaded_of_decode {s : State} {i : Instr} (hs : s.Inv)
    (hd : decode s.cfg.fx0aMode s.fetchedWord = .ok i) : s.loaded = true := by
  rw [← Bool.not_eq_false]
  intro hl
  rw [(hs.unloaded hl).fetchedWord hs.params, decode_of_family0 rfl] at hd
  cases hd

theorem State.Inv.execStrobe {s t : State} (hs : s.Inv) (h : execStrobe s = .next t) : t.Inv := by
  obtain ⟨hf, ⟨-, rfl⟩ | ⟨hp, ⟨e, -, rfl⟩ | ⟨i, hd, hi⟩⟩⟩ := execStrobe_cases h
  · refine hs.raise hf _ ?_
    have := hs.pc
    simp only [FaultKind.admits, if_true]
    omega
  · exact hs.raise hf _ rfl
  · exact (exec_effect hi).inv hs (hs.loaded_of_decode hd) hf hp

/-! ### The other strobes keep the invariant -/

theorem State.Inv.tick {s : State} (hs : s.Inv) : (tick s).Inv := by
  cases hf : s.fault with
  | some r => rwa [tick_halted hf]
  | none =>
    rw [tick_running hf]
    refine hs.of_keeps ⟨rfl, rfl, rfl, rfl, rfl, id⟩ fun _ hu => ?_
    obtain ⟨hmem, hpc, hi, hsp, hdt, hst, hv, hfb⟩ := hu
    exact ⟨hmem, hpc, hi, hsp, by simp [hdt], by simp [hst], hv, hfb⟩

/-- The reset state of legal parameters (R240). -/
theorem State.inv_resetWith {p : Params} (hp : p.wellFormed = true) : (State.resetWith p).Inv where
  params := hp
  memory := Memory.wf_reset p
  pc := by simp [State.resetWith]
  stack := fun k hk => by simp [State.resetWith]
  unloaded := fun _ => ⟨rfl, rfl, rfl, rfl, rfl, rfl, rfl, rfl⟩
  latch := fun _ h => by cases h

theorem State.Inv.resetStrobe {s : State} (hs : s.Inv) : (resetStrobe s).Inv :=
  (State.inv_resetWith hs.params).of_keeps ⟨rfl, rfl, rfl, rfl, rfl, id⟩ fun _ => id

/-- An accepted load: the image lies inside memory (R243). -/
theorem State.Inv.load {s : State} (hs : s.Inv) {image : List Byte} (himage : image.length ≤ 3584) :
    ({ s.storeBytes 0x200 image with loaded := true } : State).Inv where
  params := by simpa using hs.params
  memory := by simpa using State.wf_storeBytes hs.memory (by omega)
  pc := by simpa using hs.pc
  stack := by simpa using hs.stack
  unloaded := fun h => by cases h
  latch := by simpa [FaultRecord.agrees] using hs.latch

theorem State.Inv.strobe {s t : State} {e : Strobe} (hs : s.Inv) (h : strobe e s = .next t) :
    t.Inv := by
  cases e with
  | exec => exact hs.execStrobe h
  | tick => cases h; exact hs.tick
  | keyDown id | keyUp id | redrawAck =>
    cases h
    exact hs.of_keeps ⟨rfl, rfl, rfl, rfl, rfl, fun h => h⟩ fun _ hu => hu
  | reset => cases h; exact hs.resetStrobe
  | load image =>
    simp only [Machine.strobe] at h
    obtain ⟨-, hp⟩ | ⟨-, ⟨-, hp⟩ | ⟨himage, hp⟩⟩ := loadPort_cases image s
    · rw [hp] at h
      cases h
    · rw [hp] at h
      cases h
      exact hs
    · rw [hp] at h
      cases h
      exact hs.load himage

/-- Settles O58: the step is an EXEC, or it takes the oldest strobe of the host. -/
theorem stepKeepsTheInvariant : Obligations.StepKeepsTheInvariant := by
  unfold Obligations.StepKeepsTheInvariant
  intro s t hs h
  cases hstrobes : s.strobes with
  | nil =>
    rw [step_free hstrobes] at h
    exact hs.execStrobe h
  | cons e rest =>
    rw [step_strobe hstrobes] at h
    have hrest : ({ s with strobes := rest } : State).Inv :=
      hs.of_keeps ⟨rfl, rfl, rfl, rfl, rfl, id⟩ fun _ => id
    exact hrest.strobe h

end Sys2Proof.Machine
end

section
/-! PROOFS. The frames of an executed instruction (O14, O16). What each instruction can do is said once
(`exec_cases`); the general registers and the special state that it keeps are read off from there. -/

namespace Sys2Proof.Machine

/-! ### What each instruction can do -/

/-- From `s` to `t` the instruction `i` takes a fault, which writes the latch alone (R204). `Cxnn`, whose
byte is drawn in any case (R235), never does. -/
def Faults (i : Instr) (s t : State) : Prop :=
  drawsRandom i = false ∧ ∃ k a, t = s.raise k (encode i) a

/-- From `s` to `t` the instruction completes: the operations it writes with; a value on which no frame
depends is any value. -/
def Completes (i : Instr) (s t : State) : Prop :=
  match i with
  | .cls => t = { s with fb := FrameBuffer.clear, redraw := true }.advance
  | .ret => ∃ sp a, t = { s with sp := sp, pc := a }
  | .jp nnn => t = s.setPc (zext16 nnn)
  | .call nnn => ∃ stack sp, t = { s with stack := stack, sp := sp, pc := zext16 nnn }
  | .seImm _ _ | .sneImm _ _ | .seReg _ _ | .sneReg _ _ | .skp _ | .sknp _ => ∃ c, t = s.skipIf c
  | .ldImm x _ | .addImm x _ | .ldReg x _ | .or x _ | .and x _ | .xor x _ | .ldVDt x =>
    ∃ b, t = (s.setV x b).advance
  | .addReg x _ => ∃ b f, t = ((s.setV x b).setV vf f).advance
  | .sub x _ | .shr x _ | .subn x _ | .shl x _ => ∃ f g, t = (s.writeFlagged x f g).advance
  | .rnd x _ => ∃ b, t = { s.setV x b with drawIndex := s.drawIndex + 1 }.advance
  | .drw _ _ _ => ∃ f fb, t = { s.setV vf f with fb := fb, redraw := true }.advance
  | .ldVK x => t = s ∨ ∃ b, t = (s.setV x b).advance
  | .ldDtV _ => ∃ b, t = { s with dt := b }.advance
  | .ldStV _ => ∃ b, t = { s with st := b }.advance
  | .ldI _ | .addI _ | .ldF _ => ∃ a, t = { s with i := a }.advance
  | .bcd x => t = (s.storeBytes s.indexAddr (decimalDigits (s.getV x))).advance
  | .store x => t = ((s.storeBytes s.indexAddr (s.regsUpTo x)).bumpIndex x).advance
  | .load x => t = ((s.loadRegs s.indexAddr (x.val + 1)).bumpIndex x).advance

/-- An instruction that answers a next state takes a fault or completes. -/
theorem exec_cases {i : Instr} {s t : State} (h : exec i s = .next t) :
    Faults i s t ∨ Completes i s t := by
  cases i with
  | cls | jp nnn => cases h; exact .inr rfl
  | seImm x nn | sneImm x nn | seReg x y | sneReg x y | ldImm x nn | addImm x nn | ldReg x y | or x y
  | and x y | xor x y | ldVDt x | rnd x nn | ldDtV x | ldStV x | ldI nnn | addI x | ldF x =>
    cases h; exact .inr ⟨_, rfl⟩
  | addReg x y | sub x y | shr x y | subn x y | shl x y => cases h; exact .inr ⟨_, _, rfl⟩
  | ret =>
    simp only [exec, execRet] at h
    split at h <;> cases h
    next a u hu =>
      obtain ⟨-, -, rfl⟩ := State.eq_of_pop hu
      exact .inr ⟨_, _, rfl⟩
    · exact .inl ⟨rfl, _, _, rfl⟩
  | call nnn =>
    simp only [exec, execCall] at h
    split at h <;> cases h
    next u hu =>
      obtain ⟨-, rfl⟩ := State.eq_of_push hu
      exact .inr ⟨_, _, rfl⟩
    · exact .inl ⟨rfl, _, _, rfl⟩
  | skp x | sknp x =>
    simp only [exec, execSkp, execSknp] at h
    split at h <;> cases h
    · exact .inr ⟨_, rfl⟩
    · exact .inl ⟨rfl, _, _, rfl⟩
  | drw x y n =>
    simp only [exec, execDrw] at h
    split at h <;> cases h
    · exact .inl ⟨rfl, _, _, rfl⟩
    · exact .inr ⟨_, _, rfl⟩
  | bcd x | store x | load x =>
    simp only [exec, execBcd, execStore, execLoad] at h
    split at h <;> cases h
    · exact .inl ⟨rfl, _, _, rfl⟩
    · exact .inr rfl
  | ldVK x =>
    simp only [exec, execLdVK] at h
    split at h
    · split at h <;> cases h
      · exact .inr (.inr ⟨_, rfl⟩)
      · exact .inr (.inl rfl)
    · cases h
      exact .inl ⟨rfl, _, _, rfl⟩

/-! ### General registers (R22, R23) -/

theorem State.getV_setV_of_ne (s : State) {x k : Reg} (b : Byte) (h : k ≠ x) :
    (s.setV x b).getV k = s.getV k := by
  rw [State.getV_setV, if_neg h]

theorem State.getV_writeFlagged_of_ne (s : State) {x k : Reg} (f : Byte) (g : State → Byte)
    (hx : k ≠ x) (hvf : k ≠ vf) : (s.writeFlagged x f g).getV k = s.getV k := by
  rw [State.getV_writeFlagged]
  cases s.cfg.vfOrder <;> simp only [if_neg hx, if_neg hvf]

theorem State.getV_loadRegs_of_lt (s : State) (base : Nat) {x k : Reg} (h : x < k) :
    (s.loadRegs base (x.val + 1)).getV k = s.getV k := by
  rw [s.getV_loadRegs base _ x.isLt, if_neg (Nat.not_lt.2 h)]

theorem Completes.getV {i : Instr} {s t : State} {k : Reg} (h : Completes i s t)
    (hk : writesReg i k = false) : t.getV k = s.getV k := by
  cases i with
  | cls | jp nnn => cases h; rfl
  | ret | call nnn => obtain ⟨_, _, rfl⟩ := h; rfl
  | ldI nnn | addI x | ldF x | ldDtV x | ldStV x => obtain ⟨_, rfl⟩ := h; rfl
  | seImm x nn | sneImm x nn | seReg x y | sneReg x y | skp x | sknp x =>
    obtain ⟨c, rfl⟩ := h
    exact s.getV_skipIf c k
  | ldImm x nn | addImm x nn | ldReg x y | or x y | and x y | xor x y | rnd x nn | ldVDt x =>
    obtain ⟨b, rfl⟩ := h
    exact s.getV_setV_of_ne b (beq_eq_false_iff_ne.1 hk)
  | ldVK x =>
    obtain rfl | ⟨b, rfl⟩ := h
    · rfl
    · exact s.getV_setV_of_ne b (beq_eq_false_iff_ne.1 hk)
  | drw x y n =>
    obtain ⟨f, fb, rfl⟩ := h
    exact s.getV_setV_of_ne f (beq_eq_false_iff_ne.1 hk)
  | addReg x y =>
    obtain ⟨b, f, rfl⟩ := h
    obtain ⟨hx, hvf⟩ : k ≠ x ∧ k ≠ vf := by simpa [writesReg] using hk
    exact (State.getV_setV_of_ne _ f hvf).trans (s.getV_setV_of_ne b hx)
  | sub x y | shr x y | subn x y | shl x y =>
    obtain ⟨f, g, rfl⟩ := h
    obtain ⟨hx, hvf⟩ : k ≠ x ∧ k ≠ vf := by simpa [writesReg] using hk
    exact s.getV_writeFlagged_of_ne f g hx hvf
  | bcd x => cases h; exact s.getV_storeBytes _ _ k
  | store x => cases h; exact (State.getV_bumpIndex _ x k).trans (s.getV_storeBytes _ _ k)
  | load x =>
    cases h
    have hx : x < k := by simpa [writesReg] using hk
    exact (State.getV_bumpIndex _ x k).trans (s.getV_loadRegs_of_lt _ hx)

/-- Settles O14: a fault writes no general register, a completing instruction those listed for it. -/
theorem onlyListedRegistersAreWritten : Obligations.OnlyListedRegistersAreWritten := by
  unfold Obligations.OnlyListedRegistersAreWritten
  intro i s t k h hk
  obtain ⟨-, _, _, rfl⟩ | hc := exec_cases h
  · exact s.getV_raise _ _ _ k
  · exact hc.getV hk

/-! ### Special state (R24, R26 to R31, R33, R35, R235) -/

/-- `t` with every special field that the state rules do not let `i` write put back as it was in `s`, and
the random source moved on from `s` as `i` draws. General registers, memory, PC and FAULT are `t`'s. -/
def State.listedWrites (s : State) (i : Instr) (t : State) : State :=
  { t with
    i := if writesIndex s.cfg i then t.i else s.i
    sp := if usesStack i then t.sp else s.sp
    stack := if usesStack i then t.stack else s.stack
    dt := if writesDelay i then t.dt else s.dt
    st := if writesSound i then t.st else s.st
    fb := if usesDisplay i then t.fb else s.fb
    redraw := if usesDisplay i then t.redraw else s.redraw
    drawIndex := if drawsRandom i then s.drawIndex + 1 else s.drawIndex
    keys := s.keys
    tone := s.tone
    loaded := s.loaded
    cfg := s.cfg
    strobes := s.strobes }

theorem Faults.eq_listedWrites {i : Instr} {s t : State} (h : Faults i s t) : t = s.listedWrites i t := by
  obtain ⟨hi, k, a, rfl⟩ := h
  apply State.eq_of_fields <;> simp [State.listedWrites, hi]

theorem Completes.eq_listedWrites {i : Instr} {s t : State} (h : Completes i s t) :
    t = s.listedWrites i t := by
  cases i with
  | cls | jp nnn => cases h; rfl
  | ldI nnn | addI x | ldF x | ldDtV x | ldStV x | ldImm x nn | addImm x nn | ldReg x y | or x y
  | and x y | xor x y | rnd x nn | ldVDt x => obtain ⟨_, rfl⟩ := h; rfl
  | ret | call nnn | addReg x y | drw x y n => obtain ⟨_, _, rfl⟩ := h; rfl
  | ldVK x =>
    obtain rfl | ⟨b, rfl⟩ := h
    · rfl
    · rfl
  | seImm x nn | sneImm x nn | seReg x y | sneReg x y | skp x | sknp x =>
    obtain ⟨c, rfl⟩ := h
    rw [State.skipIf_eq]
    rfl
  | sub x y | shr x y | subn x y | shl x y =>
    obtain ⟨f, g, rfl⟩ := h
    rw [State.writeFlagged_eq]
    rfl
  | bcd x =>
    cases h
    rw [State.storeBytes_eq]
    rfl
  | store x | load x =>
    cases h
    cases hinc : s.cfg.ldstIncr
    all_goals
      apply State.eq_of_fields <;>
        simp [State.listedWrites, writesIndex, usesStack, usesDisplay, writesDelay, writesSound,
          drawsRandom, hinc]

/-- Settles O16: an executed instruction writes no special state but what is listed for it, so each clause
is one field of `listedWrites`. -/
theorem onlyListedInstructionsWriteSpecialState :
    Obligations.OnlyListedInstructionsWriteSpecialState := by
  unfold Obligations.OnlyListedInstructionsWriteSpecialState
  intro i s t h
  have ht : t = s.listedWrites i t := by
    obtain hf | hc := exec_cases h
    · exact hf.eq_listedWrites
    · exact hc.eq_listedWrites
  rw [ht]
  refine ⟨?index, ?stack, ?delay, ?sound, ?display, rfl, rfl, rfl, rfl, rfl, rfl⟩
  all_goals
    intro hi
    simp [State.listedWrites, hi]

end Sys2Proof.Machine
end

section
/-! PROOFS. Memory (O5, O8, O13, O15, O43): what a fetch reads, what an access outside memory latches, and
which bytes an instruction stores. -/

namespace Sys2Proof.Machine

/-! ### Fetch (R52, R53) -/

/-- Settles O5: `State.fetch_ok` and `State.fetch_error`, read off in the three ranges of PC. -/
theorem fetchIsBigEndianAndChecked : Obligations.FetchIsBigEndianAndChecked := by
  unfold Obligations.FetchIsBigEndianAndChecked
  intro s
  refine ⟨fun h => ⟨_, s.fetch_ok h, ?_⟩, fun h => ?_, fun h => ?_⟩
  · rw [wordOfBytes_toNat, Nat.mul_comm]
  · rw [s.fetch_error (by omega), h]
    rfl
  · rw [s.fetch_error (by omega), Nat.max_eq_left h]

/-- Settles O8: with no strobe pending the step is an EXEC, whose fetch fails. -/
theorem fetchOutsideMemoryFaults : Obligations.FetchOutsideMemoryFaults := by
  unfold Obligations.FetchOutsideMemoryFaults
  intro s hstrobes hf hp
  rw [step_free hstrobes, execStrobe_fetch_fault hf hp, State.raise_eq hf]

/-! ### Accesses at I that leave memory (R59, R152, R163 to R165; D7) -/

/-- The form of every access to `n` bytes at I: not all of them in memory, so a running core latches the
lowest failing address, max(I, 0x1000), and does not go on to the access (`r`). -/
theorem latches_of_access_outside {s : State} {n : Nat} {w : Word} {r : Result} (hf : s.fault = none)
    (hn : 0 < n) (h : 0x1000 < s.i.toNat + n) :
    (match checkRange s.indexAddr n with
      | some a => .next (s.raise .memoryFault w a)
      | none => r : Result) = .next { s with
        fault := some ⟨.memoryFault, w, s.pc, BitVec.ofNat 16 (max s.i.toNat 0x1000)⟩ } := by
  have hc : checkRange s.indexAddr n = some (max s.i.toNat 0x1000) := by
    rw [checkRange_eq, State.indexAddr, if_neg (by omega)]
  rw [hc]
  exact congrArg _ (State.raise_eq hf ..)

/-- A word of family F as its rule writes it, `0xF000 | nn | x<<8`, is the packed word. -/
theorem wordX_eq_packXNN {op : Word} (x : Reg) (nn : Byte) (h : op = 0xF000 ||| nn.setWidth 16) :
    wordX op x = packXNN 0xF x nn :=
  (wordX_eq _ _ x nn h).trans (wordXNN_eq _ _ x nn (by decide))

/-- Settles O13: the range check of each of the four accesses fails before anything is written. -/
theorem accessOutsideMemoryFaults : Obligations.AccessOutsideMemoryFaults := by
  unfold Obligations.AccessOutsideMemoryFaults
  intro s x y n hf
  refine ⟨fun hn h => ?drw, fun h => ?bcd, fun h => ?store, fun h => ?load⟩
  case drw =>
    rw [wordXYN_eq _ 0xD x y n (by decide)]
    exact latches_of_access_outside hf hn (by omega)
  case bcd =>
    rw [wordX_eq_packXNN x 0x33 (by decide)]
    exact latches_of_access_outside hf (by decide) (by omega)
  case store =>
    rw [wordX_eq_packXNN x 0x55 (by decide)]
    exact latches_of_access_outside hf x.val.succ_pos (by omega)
  case load =>
    rw [wordX_eq_packXNN x 0x65 (by decide)]
    exact latches_of_access_outside hf x.val.succ_pos (by omega)

/-! ### The bytes an instruction stores (R58) -/

/-- A byte outside the stored ones reads as before. -/
theorem State.readByte_storeBytes_of_outside {s : State} (hm : Memory.rising 0 s.mem = true) {a c : Nat}
    {bs : List Byte} (h : ¬ (a ≤ c ∧ c < a + bs.length)) :
    (s.storeBytes a bs).readByte c = s.readByte c := by
  rw [State.readByte_storeBytes hm, dif_neg (by omega)]

/-- Byte `k` of V0..Vx, stored from `a` on, reads as `V[k]` (R164). -/
theorem State.readByte_storeBytes_regsUpTo {s : State} (hm : Memory.rising 0 s.mem = true) (a : Nat)
    {x k : Reg} (hk : k ≤ x) : (s.storeBytes a (s.regsUpTo x)).readByte (a + k.val) = s.getV k := by
  have hlen : a ≤ a + k.val ∧ a + k.val - a < (s.regsUpTo x).length := by
    rw [State.regsUpTo_length, Nat.add_sub_cancel_left]
    exact ⟨Nat.le_add_right .., Nat.lt_succ_of_le hk⟩
  rw [State.readByte_storeBytes hm, dif_pos hlen, State.regsUpTo_getElem]
  simp only [Nat.add_sub_cancel_left]

theorem Completes.readByte {i : Instr} {s t : State} {a : Nat} (h : Completes i s t)
    (hm : Memory.rising 0 s.mem = true)
    (ha : ¬ (s.indexAddr ≤ a ∧ a < s.indexAddr + bytesStored i)) : t.readByte a = s.readByte a := by
  cases i with
  | cls | jp nnn => cases h; rfl
  | ldI nnn | addI x | ldF x | ldDtV x | ldStV x | ldImm x nn | addImm x nn | ldReg x y | or x y
  | and x y | xor x y | rnd x nn | ldVDt x => obtain ⟨_, rfl⟩ := h; rfl
  | ret | call nnn | addReg x y | drw x y n => obtain ⟨_, _, rfl⟩ := h; rfl
  | ldVK x =>
    obtain rfl | ⟨b, rfl⟩ := h
    · rfl
    · rfl
  | seImm x nn | sneImm x nn | seReg x y | sneReg x y | skp x | sknp x =>
    obtain ⟨c, rfl⟩ := h
    exact s.readByte_skipIf c a
  | sub x y | shr x y | subn x y | shl x y =>
    obtain ⟨f, g, rfl⟩ := h
    exact s.readByte_writeFlagged x f g a
  | load x => cases h; exact (State.readByte_bumpIndex _ x a).trans (s.readByte_loadRegs _ _ a)
  | bcd x => cases h; exact State.readByte_storeBytes_of_outside hm ha
  | store x =>
    cases h
    refine (State.readByte_bumpIndex _ x a).trans (State.readByte_storeBytes_of_outside hm ?_)
    rwa [State.regsUpTo_length]

/-- Settles O15: a fault writes no byte of memory, a completing instruction those it stores. -/
theorem onlyStoredBytesChange : Obligations.OnlyStoredBytesChange := by
  unfold Obligations.OnlyStoredBytesChange
  intro i s t a hm h ha
  obtain ⟨-, _, _, rfl⟩ | hc := exec_cases h
  · exact s.readByte_raise _ _ _ a
  · exact hc.readByte (Memory.wf_rising hm) ha

/-! ### A fetch of stored code (R62, R261) -/

/-- `Fx55` inside memory. -/
theorem exec_store_of_inside {s : State} {x : Reg} (h : s.i.toNat + x.val ≤ 0xFFF) :
    exec (.store x) s
      = .next ((s.storeBytes s.indexAddr (s.regsUpTo x)).bumpIndex x).advance := by
  have hc : checkRange s.indexAddr (x.val + 1) = none :=
    (checkRange_eq_none_iff ..).2 (by rw [State.indexAddr]; omega)
  simp only [exec, execStore, hc]

/-- Settles O43: both bytes of the fetched word are stored registers. -/
theorem fetchSeesStoredCode : Obligations.FetchSeesStoredCode := by
  unfold Obligations.FetchSeesStoredCode
  intro s t u x k hk hm hkx hx h hmem hcfg hpc
  rw [exec_store_of_inside hx] at h
  cases h
  have hread : ∀ j : Reg, j ≤ x → u.readByte (s.indexAddr + j.val) = s.getV j := fun j hj => by
    rw [State.readByte_congr hmem hcfg, State.readByte_advance, State.readByte_bumpIndex,
      State.readByte_storeBytes_regsUpTo (Memory.wf_rising hm) _ hj]
  have hin : u.pc.toNat ≤ 0xFFE := by
    have : k.val < x.val := hkx
    omega
  rw [u.fetch_ok hin, hpc]
  exact congrArg Except.ok (congrArg₂ wordOfBytes (hread k hkx.le) (hread ⟨k.val + 1, hk⟩ hkx))

end Sys2Proof.Machine
end

section
/-! PROOFS. Encoding and decoding, and the step that decodes (O1, O2, O3, O4, O6, O7, O9): each direction
of decoding is said once per family, by the fields of the word (R71, R75). -/

namespace Sys2Proof

/-! ### Decode of a packed word, for the families with a subfamily (R75) -/

theorem decode_packXYN_8 (m : Fx0aMode) (x y : Reg) (n : BitVec 4) :
    decode m (packXYN 0x8 x y n) = decode8 x y n := by
  rw [decode_of_family8 (family_packXYN ..), fieldX_packXYN, fieldY_packXYN, fieldN_packXYN]

theorem decode_packXNN_E (m : Fx0aMode) (x : Reg) (nn : Byte) :
    decode m (packXNN 0xE x nn) = decodeE x nn := by
  rw [decode_of_familyE (family_packXNN ..), fieldX_packXNN, fieldNN_packXNN]

theorem decode_packXNN_F (m : Fx0aMode) (x : Reg) (nn : Byte) :
    decode m (packXNN 0xF x nn) = decodeF m x nn := by
  rw [decode_of_familyF (family_packXNN ..), fieldX_packXNN, fieldNN_packXNN]

/-- Settles O2, format by format: the fields of the packed word are the operands, and its subfamily
selects the operation. -/
theorem decodeInvertsEncode : Obligations.DecodeInvertsEncode := by
  unfold Obligations.DecodeInvertsEncode
  intro m i hi
  cases i with
  | cls | ret => rfl
  | jp nnn => rw [encode, decode_of_family1 (family_packNNN ..), fieldNNN_packNNN]
  | call nnn => rw [encode, decode_of_family2 (family_packNNN ..), fieldNNN_packNNN]
  | ldI nnn => rw [encode, decode_of_familyA (family_packNNN ..), fieldNNN_packNNN]
  | seImm x nn => rw [encode, decode_of_family3 (family_packXNN ..), fieldX_packXNN, fieldNN_packXNN]
  | sneImm x nn => rw [encode, decode_of_family4 (family_packXNN ..), fieldX_packXNN, fieldNN_packXNN]
  | ldImm x nn => rw [encode, decode_of_family6 (family_packXNN ..), fieldX_packXNN, fieldNN_packXNN]
  | addImm x nn => rw [encode, decode_of_family7 (family_packXNN ..), fieldX_packXNN, fieldNN_packXNN]
  | rnd x nn => rw [encode, decode_of_familyC (family_packXNN ..), fieldX_packXNN, fieldNN_packXNN]
  | seReg x y =>
    rw [encode, decode_of_family5 (family_packXYN ..), fieldN_packXYN, fieldX_packXYN, fieldY_packXYN,
      if_pos rfl]
  | sneReg x y =>
    rw [encode, decode_of_family9 (family_packXYN ..), fieldN_packXYN, fieldX_packXYN, fieldY_packXYN,
      if_pos rfl]
  | drw x y n =>
    rw [encode, decode_of_familyD (family_packXYN ..), fieldX_packXYN, fieldY_packXYN, fieldN_packXYN]
  | ldReg x y | or x y | and x y | xor x y | addReg x y | sub x y | shr x y | subn x y | shl x y =>
    exact decode_packXYN_8 m x y _
  | skp x | sknp x => exact decode_packXNN_E m x _
  | ldVDt x | ldDtV x | ldStV x | addI x | ldF x | bcd x | store x | load x =>
    exact decode_packXNN_F m x _
  | ldVK x =>
    obtain rfl : m = .wait := eq_of_beq hi
    exact decode_packXNN_F .wait x 0x0A

/-! ### Encode of what a word decodes to (R75) -/

theorem packNNN_of_family {w : Word} {f : BitVec 4} (h : family w = f) : packNNN f (fieldNNN w) = w :=
  h ▸ packNNN_fields w

theorem packXNN_of_family {w : Word} {f : BitVec 4} (h : family w = f) :
    packXNN f (fieldX w) (fieldNN w) = w := h ▸ packXNN_fields w

theorem packXYN_of_family {w : Word} {f n : BitVec 4} (h : family w = f) (hn : fieldN w = n) :
    packXYN f (fieldX w) (fieldY w) n = w := h ▸ hn ▸ packXYN_fields w

theorem encode_of_decode0 {w : Word} {i : Instr} (h : decode0 w = .ok i) :
    encode i = w ∧ ∀ m, i.wellFormed m = true := by
  unfold decode0 at h
  split_ifs at h
  all_goals
    cases h
    exact ⟨Eq.symm ‹w = _›, fun _ => rfl⟩

theorem encode_of_decode8 {x y : Reg} {n : BitVec 4} {i : Instr} (h : decode8 x y n = .ok i) :
    encode i = packXYN 0x8 x y n ∧ ∀ m, i.wellFormed m = true := by
  unfold decode8 at h
  split_ifs at h
  all_goals
    cases h
    subst ‹n = _›
    exact ⟨rfl, fun _ => rfl⟩

theorem encode_of_decodeE {x : Reg} {nn : Byte} {i : Instr} (h : decodeE x nn = .ok i) :
    encode i = packXNN 0xE x nn ∧ ∀ m, i.wellFormed m = true := by
  unfold decodeE at h
  split_ifs at h
  all_goals
    cases h
    subst ‹nn = _›
    exact ⟨rfl, fun _ => rfl⟩

theorem encode_of_decodeF {m : Fx0aMode} {x : Reg} {nn : Byte} {i : Instr}
    (h : decodeF m x nn = .ok i) : encode i = packXNN 0xF x nn ∧ i.wellFormed m = true := by
  unfold decodeF at h
  cases m <;> split_ifs at h
  all_goals
    cases h
    subst ‹nn = _›
    exact ⟨rfl, rfl⟩

/-- Settles O3, family by family: a word is packed from its fields. -/
theorem encodeInvertsDecode : Obligations.EncodeInvertsDecode := by
  unfold Obligations.EncodeInvertsDecode
  intro m w i hd
  obtain h | h | h | h | h | h | h | h | h | h | h | h | h | h | h | h := family_cases w
  · rw [decode_of_family0 h] at hd
    exact (encode_of_decode0 hd).imp_right (· m)
  · cases (decode_of_family1 h).symm.trans hd
    exact ⟨packNNN_of_family h, rfl⟩
  · cases (decode_of_family2 h).symm.trans hd
    exact ⟨packNNN_of_family h, rfl⟩
  · cases (decode_of_family3 h).symm.trans hd
    exact ⟨packXNN_of_family h, rfl⟩
  · cases (decode_of_family4 h).symm.trans hd
    exact ⟨packXNN_of_family h, rfl⟩
  · rw [decode_of_family5 h] at hd
    split_ifs at hd with hn
    cases hd
    exact ⟨packXYN_of_family h hn, rfl⟩
  · cases (decode_of_family6 h).symm.trans hd
    exact ⟨packXNN_of_family h, rfl⟩
  · cases (decode_of_family7 h).symm.trans hd
    exact ⟨packXNN_of_family h, rfl⟩
  · rw [decode_of_family8 h] at hd
    obtain ⟨he, hwf⟩ := encode_of_decode8 hd
    exact ⟨he.trans (packXYN_of_family h rfl), hwf m⟩
  · rw [decode_of_family9 h] at hd
    split_ifs at hd with hn
    cases hd
    exact ⟨packXYN_of_family h hn, rfl⟩
  · cases (decode_of_familyA h).symm.trans hd
    exact ⟨packNNN_of_family h, rfl⟩
  · cases (decode_of_familyB h).symm.trans hd
  · cases (decode_of_familyC h).symm.trans hd
    exact ⟨packXNN_of_family h, rfl⟩
  · cases (decode_of_familyD h).symm.trans hd
    exact ⟨packXYN_of_family h rfl, rfl⟩
  · rw [decode_of_familyE h] at hd
    obtain ⟨he, hwf⟩ := encode_of_decodeE hd
    exact ⟨he.trans (packXNN_of_family h), hwf m⟩
  · rw [decode_of_familyF h] at hd
    obtain ⟨he, hwf⟩ := encode_of_decodeF hd
    exact ⟨he.trans (packXNN_of_family h), hwf⟩

/-! ### What the subfamilies reject (R76) -/

/-- Decoding ends in a rejection. -/
def Rejected (r : Except Reject Instr) : Prop := ∃ e, r = .error e

@[simp] theorem rejected_error (e : Reject) : Rejected (.error e) := ⟨e, rfl⟩

@[simp] theorem not_rejected_ok (i : Instr) : ¬ Rejected (.ok i) := nofun

/-- A test on the way to an instruction: the word is rejected when it fails and the rest rejects. -/
@[simp] theorem rejected_ite_ok {c : Prop} [Decidable c] (i : Instr) (r : Except Reject Instr) :
    Rejected (if c then .ok i else r) ↔ ¬ c ∧ Rejected r := by
  split <;> simp [*]

theorem decode0_rejected (w : Word) : Rejected (decode0 w) ↔ w ≠ 0x00E0 ∧ w ≠ 0x00EE := by
  simp [decode0]

theorem decode8_rejected (x y : Reg) (n : BitVec 4) :
    Rejected (decode8 x y n) ↔ n.toNat ∈ [0x8, 0x9, 0xA, 0xB, 0xC, 0xD, 0xF] := by
  simp only [decode8, rejected_ite_ok, rejected_error, and_true]
  revert n
  decide

theorem decodeE_rejected (x : Reg) (nn : Byte) :
    Rejected (decodeE x nn) ↔ nn.toNat ∉ [0x9E, 0xA1] := by
  simp [decodeE, ← BitVec.toNat_inj]

theorem decodeF_rejected (m : Fx0aMode) (x : Reg) (nn : Byte) :
    Rejected (decodeF m x nn) ↔
      nn.toNat ∉ [0x07, 0x0A, 0x15, 0x18, 0x1E, 0x29, 0x33, 0x55, 0x65] ∨
      (nn.toNat = 0x0A ∧ m = .fault) := by
  by_cases h : nn = 0x0A
  · subst h
    cases m <;> simp [decodeF]
  · have h' : nn.toNat ≠ 0x0A := fun e => h (BitVec.eq_of_toNat_eq e)
    simp [decodeF, h', ← BitVec.toNat_inj]

end Sys2Proof

namespace Sys2Proof.Machine

/-- Family by family, a word is rejected exactly when it lies in its family's sets of R76. -/
theorem decode_rejected (m : Fx0aMode) (w : Word) : Rejected (decode m w) ↔ InvalidWord m w := by
  simp only [InvalidWord, ← family_toNat, ← fieldN_toNat, ← fieldNN_toNat]
  obtain h | h | h | h | h | h | h | h | h | h | h | h | h | h | h | h := family_cases w
  · simp [h, decode_of_family0, decode0_rejected]
  · simp [h, decode_of_family1]
  · simp [h, decode_of_family2]
  · simp [h, decode_of_family3]
  · simp [h, decode_of_family4]
  · simp [h, decode_of_family5, ← BitVec.toNat_inj]
  · simp [h, decode_of_family6]
  · simp [h, decode_of_family7]
  · simp [h, decode_of_family8, decode8_rejected]
  · simp [h, decode_of_family9, ← BitVec.toNat_inj]
  · simp [h, decode_of_familyA]
  · simp [h, decode_of_familyB]
  · simp [h, decode_of_familyC]
  · simp [h, decode_of_familyD]
  · simp [h, decode_of_familyE, decodeE_rejected]
  · simp [h, decode_of_familyF, decodeF_rejected]

/-- Settles O4: `decode_rejected`. -/
theorem rejectsExactlyTheInvalidWords : Obligations.RejectsExactlyTheInvalidWords := by
  unfold Obligations.RejectsExactlyTheInvalidWords
  exact decode_rejected

/-! ### The step that decodes (R76, R80) -/

/-- Settles O9: an invalid word is rejected, and the EXEC latches it. -/
theorem invalidWordFaults : Obligations.InvalidWordFaults := by
  unfold Obligations.InvalidWordFaults
  intro s hstrobes hf hp w hw
  obtain ⟨e, hd⟩ := (decode_rejected _ w).2 hw
  rw [step_free hstrobes, execStrobe_invalid hf hp hd, State.raise_eq hf]
  rfl

/-- Settles O6: with no strobe pending the step is an EXEC; a pending EXEC is one on the state without
it, which has the same parameters, PC and memory. -/
theorem stepRunsDecodedInstruction : Obligations.StepRunsDecodedInstruction := by
  unfold Obligations.StepRunsDecodedInstruction
  intro s i hf hp hd
  refine ⟨fun hs => ?free, fun rest hs => ?pending⟩
  case free => rw [step_free hs, execStrobe_exec hf hp hd]
  case pending =>
    rw [step_strobe hs]
    exact execStrobe_exec (s := { s with strobes := rest }) hf hp hd

/-! ### A placed word (log 24) -/

theorem State.withFetchWord_pc (s : State) (w : Word) :
    (s.withFetchWord 16 w.toNat).pc = if s.pc.toNat ≤ 0xFFE then s.pc else 0x0200 := by
  rw [State.withFetchWord_eq, State.storeBytes_pc]
  rfl

/-- Placing a word writes memory, PC, the latch and the pending strobes, and nothing else. -/
theorem State.withFetchWord_eq_update (s : State) (w : Word) :
    s.withFetchWord 16 w.toNat = { s with
      mem := (s.withFetchWord 16 w.toNat).mem
      pc := (s.withFetchWord 16 w.toNat).pc
      fault := none
      strobes := [] } := by
  rw [State.withFetchWord_eq, State.storeBytes_pc]
  exact State.storeBytes_eq s.readyToFetch _ _

theorem State.setsBytes_withFetchWord {s : State} (hm : Memory.rising 0 s.mem = true) (w : Word) :
    SetsBytes s (s.withFetchWord 16 w.toNat) (s.withFetchWord 16 w.toNat).pc.toNat
      [highByte w, lowByte w] := by
  rw [State.withFetchWord_eq, State.storeBytes_pc]
  exact State.readByte_storeBytes (s := s.readyToFetch) hm _ _

/-- The next fetch reads the placed word. -/
theorem State.fetchedWord_withFetchWord {s : State} (hm : Memory.rising 0 s.mem = true) (w : Word) :
    (s.withFetchWord 16 w.toNat).fetchedWord = w := by
  have h := State.setsBytes_withFetchWord hm w
  rw [State.fetchedWord, h, h]
  simp

/-- Settles O7: the placed word is fetched from a running core with no strobe pending. -/
theorem placedWordRunsNext : Obligations.PlacedWordRunsNext := by
  unfold Obligations.PlacedWordRunsNext
  intro s w i hm hd t
  have hrising := Memory.wf_rising hm
  have ht : t = { s with mem := t.mem, pc := t.pc, fault := none, strobes := [] } :=
    s.withFetchWord_eq_update w
  have hcfg : t.cfg = s.cfg := by rw [ht]
  have hpc : t.pc.toNat ≤ 0xFFE := (s.withFetchWord_pc w).symm ▸ s.readyToFetch_pc_le
  have hdecode : decode t.cfg.fx0aMode t.fetchedWord = .ok i := by
    rw [hcfg, State.fetchedWord_withFetchWord hrising, hd]
  refine ⟨?_, s.withFetchWord_pc w, State.setsBytes_withFetchWord hrising w, ht⟩
  rw [step_free (by rw [ht]), execStrobe_exec (by rw [ht]) hpc hdecode]

/-! ### Sample words (R74) -/

/-- Settles O1: every word is written out, so decode evaluates. -/
theorem sampleWordsDecode : Obligations.SampleWordsDecode := by
  unfold Obligations.SampleWordsDecode
  decide

end Sys2Proof.Machine
end

section
/-! PROOFS. The register and ALU instructions (O17 to O25): the words that stand for them, and the
registers after a result alone, a result and then a flag, and a flagged result in either order (R101). -/

namespace Sys2Proof.Machine

/-! ### The words of instructions (R71, R77) -/

/-- The encoder's word stands for its instruction in every mode that has it (O2). -/
theorem encodes_of_encode {w : Word} {i : Instr} (h : encode i = w) : Encodes w i :=
  ⟨h, fun m hm => h ▸ decodeInvertsEncode m i hm⟩

theorem encodes_wordXNN {i : Instr} {op : Word} {f : BitVec 4} {x : Reg} {nn : Byte}
    (he : encode i = packXNN f x nn) (hop : op.toNat = 2 ^ 12 * f.toNat) :
    Encodes (wordXNN op x nn) i :=
  encodes_of_encode (he.trans (wordXNN_eq op f x nn hop).symm)

/-- `op'` is the opcode whose family nibble is `f` and whose last nibble is `n`. -/
theorem encodes_wordXY {i : Instr} {op' : Word} {f n : BitVec 4} {x y : Reg}
    (he : encode i = packXYN f x y n) (hop : op' = f.setWidth 16 <<< 12 ||| n.setWidth 16) :
    Encodes (wordXY op' x y) i := by
  have hf : (f.setWidth 16 <<< 12).toNat = 2 ^ 12 * f.toNat := by
    have := f.isLt
    simp only [BitVec.toNat_shiftLeft, BitVec.toNat_setWidth, Nat.shiftLeft_eq]
    omega
  rw [wordXY_eq _ op' x y n hop, wordXYN_eq _ f x y n hf]
  exact encodes_of_encode he

/-! ### Flag values and results as numbers (R100, R108 to R114) -/

theorem carryFlag_eq (a b : Byte) :
    carryFlag a b = if 255 < a.toNat + b.toNat then 0x01 else 0x00 := by
  simp [carryFlag, flagByte]

theorem noBorrowFlag_eq (a b : Byte) :
    noBorrowFlag a b = if b.toNat ≤ a.toNat then 0x01 else 0x00 := by
  simp [noBorrowFlag, flagByte]

theorem lowBitFlag_eq_mod (a : Byte) : lowBitFlag a = BitVec.ofNat 8 (a.toNat % 2) :=
  BitVec.eq_of_toNat_eq (by
    rw [lowBitFlag, BitVec.toNat_and, show (0x01 : Byte).toNat = 1 from rfl, Nat.and_one_is_mod,
      BitVec.toNat_ofNat]
    omega)

theorem highBitFlag_eq_div (a : Byte) : highBitFlag a = BitVec.ofNat 8 (a.toNat / 128) := by
  have hshift : (a >>> 7).toNat = a.toNat / 128 := by bv_omega
  have hbit : a.toNat / 128 % 2 = a.toNat / 128 := by bv_omega
  change lowBitFlag (a >>> 7) = _
  rw [lowBitFlag_eq_mod, hshift, hbit]

theorem byte_add_eq (a b : Byte) : a + b = BitVec.ofNat 8 (a.toNat + b.toNat) :=
  BitVec.eq_of_toNat_eq (by simp)

theorem byte_sub_eq (a b : Byte) : a - b = BitVec.ofNat 8 (a.toNat + 256 - b.toNat) := by
  bv_omega

theorem byte_shiftRight_one_eq (a : Byte) : a >>> 1 = BitVec.ofNat 8 (a.toNat / 2) := by
  bv_omega

theorem byte_shiftLeft_one_eq (a : Byte) : a <<< 1 = BitVec.ofNat 8 (a.toNat * 2) := by
  bv_omega

/-! ### The registers after a result, after a result and a flag, and after both in either order -/

theorem setsReg_setV (s : State) (x : Reg) (b : Byte) : SetsReg s (s.setV x b).advance x b :=
  fun k => s.getV_setV x k b

theorem setsRegThenFlag_setV_setV (s : State) (x : Reg) (b f : Byte) :
    SetsRegThenFlag s ((s.setV x b).setV vf f).advance x b f := fun k => by
  simp only [State.getV_advance, State.getV_setV]

theorem State.getV_setV_vf (s : State) (f : Byte) (k : Reg) : (s.setV vf f).getV k = s.withFlag f k :=
  s.getV_setV vf k f

/-- `writeFlagged` is the two orders of R101, for a result that depends on Vx and Vy alone. -/
theorem setsFlagged_writeFlagged (s : State) (x y : Reg) (f : Byte) (op : Byte → Byte → Byte) :
    SetsFlagged s (s.writeFlagged x f fun t => op (t.getV x) (t.getV y)).advance x y f op := by
  unfold SetsFlagged
  cases h : s.cfg.vfOrder
  case docSequential =>
    intro k
    simp only [State.getV_advance, State.getV_writeFlagged, h, State.getV_setV_vf, State.withFlag]
  case latchedFlagLast =>
    intro k
    simp only [State.getV_advance, State.getV_writeFlagged, h]

/-- With neither operand VF the flag write changes no operand, so the order makes no difference. -/
theorem State.getV_writeFlagged_of_ne_vf (s : State) {x y : Reg} (hx : x ≠ vf) (hy : y ≠ vf) (f : Byte)
    (op : Byte → Byte → Byte) (k : Reg) :
    (s.writeFlagged x f fun t => op (t.getV x) (t.getV y)).getV k =
      if k = vf then f else if k = x then op (s.getV x) (s.getV y) else s.getV k := by
  rw [State.getV_writeFlagged]
  cases s.cfg.vfOrder
  case latchedFlagLast => rfl
  case docSequential =>
    by_cases hk : k = x
    · simp [hk, hx, s.getV_setV_of_ne f hx, s.getV_setV_of_ne f hy]
    · simp [hk]

/-- So a flag and a result that depend on Vx and Vy alone give the same registers in two states with the
same registers, whatever their orders. -/
theorem State.advance_writeFlagged_v_congr {s s' : State} (hs : s'.v = s.v) {x y : Reg} (hx : x ≠ vf)
    (hy : y ≠ vf) (flag op : Byte → Byte → Byte) :
    (s'.writeFlagged x (flag (s'.getV x) (s'.getV y)) fun t => op (t.getV x) (t.getV y)).advance.v =
      (s.writeFlagged x (flag (s.getV x) (s.getV y)) fun t => op (t.getV x) (t.getV y)).advance.v :=
  State.v_ext fun k => by
    simp only [State.getV_advance, State.getV_writeFlagged_of_ne_vf _ hx hy, State.getV_congr hs]

theorem State.advance_writeFlagged_eq (s : State) (x : Reg) (f : Byte) (g : State → Byte) :
    (s.writeFlagged x f g).advance =
      { s with v := (s.writeFlagged x f g).advance.v, pc := s.pc + 2 } := by
  rw [State.writeFlagged_eq]
  rfl

/-! ### Instructions with a flag, in either order (R101, R110 to R114) -/

/-- Settles O22: both differences are `writeFlagged`. -/
theorem subtractSetsNoBorrow : Obligations.SubtractSetsNoBorrow := by
  unfold Obligations.SubtractSetsNoBorrow
  intro s x y
  simp only [← byte_sub_eq, ← noBorrowFlag_eq]
  exact ⟨encodes_wordXY rfl rfl, encodes_wordXY rfl rfl,
    ⟨_, rfl, setsFlagged_writeFlagged s x y _ (fun a b => a - b), s.advance_writeFlagged_eq x _ _⟩,
    ⟨_, rfl, setsFlagged_writeFlagged s x y _ (fun a b => b - a), s.advance_writeFlagged_eq x _ _⟩⟩

/-- Settles O23: both shifts are `writeFlagged`, of a result in which y does not occur. -/
theorem shiftsMoveOneBitOut : Obligations.ShiftsMoveOneBitOut := by
  unfold Obligations.ShiftsMoveOneBitOut
  intro s x y
  simp only [← byte_shiftRight_one_eq, ← byte_shiftLeft_one_eq, ← lowBitFlag_eq_mod,
    ← highBitFlag_eq_div]
  exact ⟨encodes_wordXY rfl rfl, encodes_wordXY rfl rfl,
    ⟨_, rfl, setsFlagged_writeFlagged s x x _ (fun a _ => a >>> 1), s.advance_writeFlagged_eq x _ _⟩,
    ⟨_, rfl, setsFlagged_writeFlagged s x x _ (fun a _ => a <<< 1), s.advance_writeFlagged_eq x _ _⟩⟩

/-- Settles O24: `8xy4` does not read the order, and for the others it makes no difference
(`State.advance_writeFlagged_v_congr`). -/
theorem flagOrderMattersOnlyForVf : Obligations.FlagOrderMattersOnlyForVf := by
  unfold Obligations.FlagOrderMattersOnlyForVf
  intro s x y i hx hy hi
  simp only [List.mem_cons, List.not_mem_nil, or_false] at hi
  obtain rfl | rfl | rfl | rfl | rfl := hi
  · exact ⟨_, _, rfl, rfl, rfl⟩
  · exact ⟨_, _, rfl, rfl,
      State.advance_writeFlagged_v_congr (by rfl) hx hy noBorrowFlag (fun a b => a - b)⟩
  · exact ⟨_, _, rfl, rfl,
      State.advance_writeFlagged_v_congr (by rfl) hx hx (fun a _ => lowBitFlag a) (fun a _ => a >>> 1)⟩
  · exact ⟨_, _, rfl, rfl,
      State.advance_writeFlagged_v_congr (by rfl) hx hy (fun a b => noBorrowFlag b a) (fun a b => b - a)⟩
  · exact ⟨_, _, rfl, rfl,
      State.advance_writeFlagged_v_congr (by rfl) hx hx (fun a _ => highBitFlag a) (fun a _ => a <<< 1)⟩

/-! ### Instructions without a flag, and the sum (R102 to R108, R120) -/

/-- Settles O17. -/
theorem loadImmediateSetsVx : Obligations.LoadImmediateSetsVx := by
  unfold Obligations.LoadImmediateSetsVx
  intro s x nn
  exact ⟨encodes_wordXNN rfl rfl, _, rfl, setsReg_setV s x nn, rfl⟩

/-- Settles O18. -/
theorem addImmediateWraps : Obligations.AddImmediateWraps := by
  unfold Obligations.AddImmediateWraps
  intro s x nn
  rw [← byte_add_eq]
  exact ⟨encodes_wordXNN rfl rfl, _, rfl, setsReg_setV s x _, rfl⟩

/-- Settles O19. -/
theorem moveCopiesVy : Obligations.MoveCopiesVy := by
  unfold Obligations.MoveCopiesVy
  intro s x y
  exact ⟨encodes_wordXY rfl rfl, _, rfl, setsReg_setV s x (s.getV y), rfl⟩

/-- Settles O20. -/
theorem logicIsBitwise : Obligations.LogicIsBitwise := by
  unfold Obligations.LogicIsBitwise
  intro s x y
  exact ⟨encodes_wordXY rfl rfl, encodes_wordXY rfl rfl, encodes_wordXY rfl rfl,
    ⟨_, _, rfl, setsReg_setV s x _, fun _ => BitVec.getLsbD_or, rfl⟩,
    ⟨_, _, rfl, setsReg_setV s x _, fun _ => BitVec.getLsbD_and, rfl⟩,
    ⟨_, _, rfl, setsReg_setV s x _, fun _ => BitVec.getLsbD_xor, rfl⟩⟩

/-- Settles O21: the carry is of the operands as they were, and it is written last. -/
theorem addSetsCarry : Obligations.AddSetsCarry := by
  unfold Obligations.AddSetsCarry
  intro s x y
  rw [← byte_add_eq, ← carryFlag_eq]
  exact ⟨encodes_wordXY rfl rfl, _, rfl, setsRegThenFlag_setV_setV s x _ _, rfl⟩

/-- Settles O25: the draw is a value like any other, taken once. -/
theorem randomByteIsMasked : Obligations.RandomByteIsMasked := by
  unfold Obligations.RandomByteIsMasked
  intro s x nn
  exact ⟨encodes_wordXNN rfl rfl, _, rfl, setsReg_setV s x _, rfl⟩

end Sys2Proof.Machine
end

section
/-! PROOFS. Control flow (O26 to O33): a call and a return on either side of the stack's bound, the key
skips on either side of the last key, and a skip by the proposition that it tests. -/

namespace Sys2Proof.Machine

/-! ### The words of instructions (R71, R77) -/

theorem encodes_wordNNN {i : Instr} {op : Word} {f : BitVec 4} {nnn : BitVec 12}
    (he : encode i = packNNN f nnn) (hop : op.toNat = 2 ^ 12 * f.toNat) :
    Encodes (wordNNN op nnn) i :=
  encodes_of_encode (he.trans (wordNNN_eq op f nnn hop).symm)

/-- A word of family E as its rule writes it, `0xE000 | nn | x<<8`, is the packed word. -/
theorem wordX_eq_packXNN_E {op : Word} (x : Reg) (nn : Byte) (h : op = 0xE000 ||| nn.setWidth 16) :
    wordX op x = packXNN 0xE x nn :=
  (wordX_eq _ _ x nn h).trans (wordXNN_eq _ _ x nn (by decide))

/-! ### Call and return (R130, R132) -/

theorem zext16_toNat (nnn : BitVec 12) : (zext16 nnn).toNat = nnn.toNat :=
  BitVec.toNat_setWidth_of_le (by decide)

theorem exec_call_of_lt {s : State} (nnn : BitVec 12) (h : s.sp.val < 16) :
    exec (.call nnn) s = .next
      { s with stack := s.stack.set s.sp.val (s.pc + 2), sp := ⟨s.sp.val + 1, by omega⟩,
               pc := zext16 nnn } := by
  simp only [exec, execCall, s.push_some _ h, State.setPc]

theorem exec_call_of_full {s : State} (nnn : BitVec 12) (h : s.sp = 16) (hf : s.fault = none) :
    exec (.call nnn) s
      = .next { s with fault := some ⟨.stackOverflow, encode (.call nnn), s.pc, 0⟩ } := by
  simp only [exec, execCall, s.push_none _ (by simp [h]), State.raise_eq hf, BitVec.ofNat_eq_ofNat]

theorem exec_ret_of_pos {s : State} (h : 0 < s.sp.val) :
    exec .ret s = .next
      { s with sp := ⟨s.sp.val - 1, by omega⟩, pc := s.stack[s.sp.val - 1]'(by omega) } := by
  simp only [exec, execRet, s.pop_some h, State.setPc]

theorem exec_ret_of_empty {s : State} (h : s.sp = 0) (hf : s.fault = none) :
    exec .ret s = .next { s with fault := some ⟨.stackUnderflow, encode .ret, s.pc, 0⟩ } := by
  simp only [exec, execRet, s.pop_none (by simp [h]), State.raise_eq hf, BitVec.ofNat_eq_ofNat]

/-- Settles O29: the return pops the entry that the call pushed. -/
theorem returnResumesAfterTheCall : Obligations.ReturnResumesAfterTheCall := by
  unfold Obligations.ReturnResumesAfterTheCall
  intro s nnn hsp
  refine ⟨_, exec_call_of_lt nnn hsp, fun u hu hstack => ?_⟩
  have hval : u.sp.val = s.sp.val + 1 := congrArg Fin.val hu
  refine ⟨_, exec_ret_of_pos (by omega), ?_, Fin.ext ?_⟩
  · simp only [hstack, hval, Nat.add_sub_cancel, Vector.getElem_set_self]
  · simp only [hval, Nat.add_sub_cancel]

/-- Calls that fit on the stack complete, and each takes one entry. -/
theorem execAll_calls (targets : List (BitVec 12)) {s : State}
    (h : s.sp.val + targets.length ≤ 16) :
    ∃ t, execAll (targets.map .call) s = .next t ∧ t.sp.val = s.sp.val + targets.length ∧
      t.fault = s.fault := by
  induction targets generalizing s with
  | nil => exact ⟨s, rfl, rfl, rfl⟩
  | cons nnn targets ih =>
    rw [List.length_cons] at h
    have hsp : s.sp.val < 16 := by omega
    obtain ⟨t, ht, htsp, htf⟩ := ih
      (s := { s with stack := s.stack.set s.sp.val (s.pc + 2), sp := ⟨s.sp.val + 1, by omega⟩,
                     pc := zext16 nnn })
      (by dsimp only; omega)
    refine ⟨t, ?_, ?_, htf⟩
    · rw [List.map_cons, execAll, exec_call_of_lt nnn hsp]
      exact ht
    · rw [htsp, List.length_cons]
      dsimp only
      omega

/-- Settles O30: sixteen calls fit on an empty stack, and fill it. -/
theorem seventeenthCallOverflows : Obligations.SeventeenthCallOverflows := by
  unfold Obligations.SeventeenthCallOverflows
  intro s targets hsp hf hlen
  have hroom : s.sp.val + targets.length = 16 := by rw [hsp, hlen]; rfl
  obtain ⟨t, ht, htsp, htf⟩ := execAll_calls targets hroom.le
  have hfull : t.sp = 16 := Fin.ext (htsp.trans hroom)
  have hrun : t.fault = none := htf.trans hf
  exact ⟨t, ht, hfull, hrun, fun nnn => ⟨_, exec_call_of_full nnn hfull hrun, rfl⟩⟩

/-- Settles O26. -/
theorem returnPopsTheStack : Obligations.ReturnPopsTheStack := by
  unfold Obligations.ReturnPopsTheStack
  intro s
  exact ⟨encodes_of_encode rfl, fun h => ⟨_, exec_ret_of_pos h, rfl, rfl, rfl⟩,
    fun h hf => ⟨_, exec_ret_of_empty h hf, rfl, rfl⟩⟩

/-- Settles O27. -/
theorem jumpSetsPc : Obligations.JumpSetsPc := by
  unfold Obligations.JumpSetsPc
  intro s nnn
  exact ⟨encodes_wordNNN rfl rfl, _, rfl, zext16_toNat nnn, rfl⟩

/-- Settles O28: the pushed address is the stack's entry at SP alone. -/
theorem callPushesTheNextAddress : Obligations.CallPushesTheNextAddress := by
  unfold Obligations.CallPushesTheNextAddress
  intro s nnn
  have hword : encode (.call nnn) = wordNNN 0x2000 nnn := (wordNNN_eq _ _ nnn rfl).symm
  refine ⟨encodes_of_encode hword, fun h => ?_, fun h hf => ?_⟩
  · refine ⟨_, exec_call_of_lt nnn h, rfl, zext16_toNat nnn, fun k hk => ?_, rfl⟩
    simp only [Vector.getElem_set, eq_comm]
  · exact ⟨_, exec_call_of_full nnn h hf, rfl, hword⟩

/-! ### Conditional skips (R81, R133 to R138) -/

/-- A skip on a test that decides `p`. -/
theorem State.skipIf_of_iff (s : State) {c : Bool} {p : Prop} [Decidable p] (h : c = true ↔ p) :
    s.skipIf c = { s with pc := if p then s.pc + 4 else s.pc + 2 } := by
  simp only [State.skipIf_eq, h]

/-- Settles O31. -/
theorem skipOnImmediate : Obligations.SkipOnImmediate := by
  unfold Obligations.SkipOnImmediate
  intro s x nn
  exact ⟨encodes_wordXNN rfl rfl, encodes_wordXNN rfl rfl,
    congrArg _ (s.skipIf_of_iff beq_iff_eq), congrArg _ (s.skipIf_of_iff bne_iff_ne)⟩

/-- Settles O32. -/
theorem skipOnRegisters : Obligations.SkipOnRegisters := by
  unfold Obligations.SkipOnRegisters
  intro s x y
  exact ⟨encodes_wordXY rfl rfl, encodes_wordXY rfl rfl,
    congrArg _ (s.skipIf_of_iff beq_iff_eq), congrArg _ (s.skipIf_of_iff bne_iff_ne)⟩

/-- Settles O33: Vx names a key exactly when it is below 16. -/
theorem skipOnKey : Obligations.SkipOnKey := by
  unfold Obligations.SkipOnKey
  intro s x
  have hskp : wordX 0xE09E x = encode (.skp x) := wordX_eq_packXNN_E x 0x9E (by decide)
  have hsknp : wordX 0xE0A1 x = encode (.sknp x) := wordX_eq_packXNN_E x 0xA1 (by decide)
  rw [hskp, hsknp]
  refine ⟨encodes_of_encode rfl, encodes_of_encode rfl, fun h => ?key, fun h hf => ?noKey⟩
  case key =>
    simp only [exec, execSkp, execSknp, keyId_of_lt h]
    exact ⟨congrArg _ (s.skipIf_of_iff Iff.rfl),
      congrArg _ (s.skipIf_of_iff (Iff.of_eq (Bool.not_eq_true' _)))⟩
  case noKey =>
    have hk : keyId (s.getV x) = none := keyId_of_not_lt (by omega)
    simp only [exec, execSkp, execSknp, hk, State.raise_eq hf, BitVec.ofNat_eq_ofNat, and_self]

end Sys2Proof.Machine
end

section
/-! PROOFS. The frame buffer (O34 to O36): a completed draw is said once (`exec_drw_of_fits`), in the
words of the statements, and both statements about `Dxyn` follow from it. -/

namespace Sys2Proof.Machine

/-! ### The cells of a sprite in memory (R151, R152) -/

/-- The cells that `Dxyn` toggles, as a list, are those that its sprite covers. -/
theorem State.mem_spriteCells_iff (s : State) (x y : Reg) (n : BitVec 4) (c : Nat × Nat) :
    c ∈ spriteCells (s.getV x).toNat (s.getV y).toNat 0 (s.loadBytes s.indexAddr n.toNat) ↔
      s.spriteCovers x y n c.1 c.2 = true := by
  simp only [mem_spriteCells, State.spriteCovers, State.indexAddr, State.loadBytes_length,
    State.loadBytes_getElem, List.any_eq_true, List.mem_range, Bool.and_eq_true, beq_iff_eq,
    Nat.add_zero, Prod.ext_iff, eq_comm (a := c.1), eq_comm (a := c.2), exists_prop, and_assoc]

/-- The collision that a draw reports is a hit of the sprite: the cells it toggles are all on the screen. -/
theorem State.any_spriteCells_iff (s : State) (x y : Reg) (n : BitVec 4) :
    ((spriteCells (s.getV x).toNat (s.getV y).toNat 0 (s.loadBytes s.indexAddr n.toNat)).any
      fun c => s.fb.cell c.1 c.2) = true ↔ s.spriteHits x y n true := by
  rw [List.any_eq_true]
  constructor
  · rintro ⟨c, hc, hcell⟩
    obtain ⟨hx, hy⟩ := spriteCells_range c hc
    exact ⟨c.1, c.2, hx, hy, (s.mem_spriteCells_iff x y n c).1 hc, hcell⟩
  · rintro ⟨cx, cy, -, -, hcovers, hcell⟩
    exact ⟨(cx, cy), (s.mem_spriteCells_iff x y n (cx, cy)).2 hcovers, hcell⟩

/-- What the sprite covers depends on Vx, Vy, I and memory alone. -/
theorem State.spriteCovers_congr {s u : State} {x y : Reg} (hx : u.getV x = s.getV x)
    (hy : u.getV y = s.getV y) (hi : u.i = s.i) (hmem : ∀ a, u.readByte a = s.readByte a)
    (n : BitVec 4) : u.spriteCovers x y n = s.spriteCovers x y n := by
  funext cx cy
  simp only [State.spriteCovers, hx, hy, hi, hmem]

/-- On a screen on which the covered cells are flipped, the sprite hits a 1 where it hit a 0 before
(R153, C3). -/
theorem State.spriteHits_of_flipped {s u : State} {x y : Reg} {n : BitVec 4}
    (hcovers : u.spriteCovers x y n = s.spriteCovers x y n)
    (hflip : ∀ cx cy, u.fb.cell cx cy = (s.fb.cell cx cy ^^ s.spriteCovers x y n cx cy)) :
    u.spriteHits x y n true ↔ s.spriteHits x y n false := by
  unfold State.spriteHits
  refine exists_congr fun cx => exists_congr fun cy => and_congr_right fun _ =>
    and_congr_right fun _ => ?_
  rw [hcovers, hflip]
  refine and_congr_right fun hc => ?_
  rw [hc, Bool.xor_true, Bool.not_eq_true']

/-! ### A completed draw -/

theorem flagByte_eq_one_iff (c : Bool) : flagByte c = 0x01 ↔ c = true := by
  cases c <;> decide

/-- `Dxyn` with every row in memory. Its at most 15 rows cannot overlap after wrapping, so each covered
cell flips once (R152). -/
theorem exec_drw_of_fits {s : State} (x y : Reg) {n : BitVec 4}
    (h : n.toNat = 0 ∨ s.i.toNat + n.toNat - 1 ≤ 0xFFF) :
    ∃ fb hit, exec (.drw x y n) s
        = .next { s.setV vf (flagByte hit) with fb := fb, redraw := true }.advance ∧
      (∀ cx cy, fb.cell cx cy = (s.fb.cell cx cy ^^ s.spriteCovers x y n cx cy)) ∧
      (hit = true ↔ s.spriteHits x y n true) := by
  have hc : checkRange s.indexAddr n.toNat = none :=
    (checkRange_eq_none_iff ..).2 (by rw [State.indexAddr]; omega)
  have hrows : (s.loadBytes s.indexAddr n.toNat).length ≤ 32 := by
    rw [State.loadBytes_length]
    omega
  obtain ⟨hcells, hhit⟩ := drawRows_spec (s.getV x).toNat (s.getV y).toNat _ hrows s.fb
  simp only [exec, execDrw, hc]
  refine ⟨_, _, rfl, fun cx cy => ?_, ?_⟩
  · rw [hcells, Bool.eq_iff_iff.2 (decide_eq_true_iff.trans (s.mem_spriteCells_iff x y n (cx, cy)))]
  · rw [hhit, State.any_spriteCells_iff]

/-- Settles O35: VF is the register that the draw writes, after its operands are read. -/
theorem drawFlipsTheSpriteCells : Obligations.DrawFlipsTheSpriteCells := by
  unfold Obligations.DrawFlipsTheSpriteCells
  intro s x y n
  refine ⟨encodes_of_encode (wordXYN_eq _ 0xD x y n (by decide)).symm, fun h => ?_⟩
  obtain ⟨fb, hit, hexec, hcells, hhit⟩ := exec_drw_of_fits x y h
  exact ⟨_, flagByte hit, hexec, fun cx cy _ _ => hcells cx cy, setsReg_setV s vf _,
    flagByte_cases hit, (flagByte_eq_one_iff hit).trans hhit, rfl⟩

/-- Settles O36: both draws flip the same cells, so each of them is flipped twice. -/
theorem drawTwiceRestoresTheScreen : Obligations.DrawTwiceRestoresTheScreen := by
  unfold Obligations.DrawTwiceRestoresTheScreen
  intro s t u x y n hfits hexec hfb hx hy hi hmem
  have hcovers := State.spriteCovers_congr hx hy hi hmem n
  obtain ⟨fb, hit, hfirst, hcells, -⟩ := exec_drw_of_fits x y hfits
  obtain ⟨fb', hit', hsecond, hcells', hhit'⟩ := exec_drw_of_fits (s := u) x y (hi ▸ hfits)
  have ht : t.fb = fb := by
    rw [hfirst] at hexec
    cases hexec
    rfl
  have hflip : ∀ cx cy, u.fb.cell cx cy = (s.fb.cell cx cy ^^ s.spriteCovers x y n cx cy) := by
    rw [hfb, ht]
    exact hcells
  refine ⟨_, hsecond, FrameBuffer.ext_cells fun cx cy _ _ => ?_, ?_⟩
  · rw [State.advance_fb, hcells', hflip, hcovers, Bool.xor_assoc, Bool.xor_self, Bool.xor_false]
  · calc (u.setV vf (flagByte hit')).getV vf = 0x01
        ↔ hit' = true := by rw [State.getV_setV_self, flagByte_eq_one_iff]
      _ ↔ u.spriteHits x y n true := hhit'
      _ ↔ s.spriteHits x y n false := State.spriteHits_of_flipped hcovers hflip

/-! ### Clearing the screen (R150) -/

/-- Settles O34. -/
theorem clearScreenClearsEveryCell : Obligations.ClearScreenClearsEveryCell := by
  unfold Obligations.ClearScreenClearsEveryCell
  intro s
  exact ⟨encodes_of_encode rfl, _, rfl, fun x y _ _ => FrameBuffer.cell_clear x y, rfl⟩

end Sys2Proof.Machine
end

section
/-! PROOFS. The index register and the memory transfers (O37 to O42): each transfer inside memory is said
once as the operation that it completes with; its bytes, registers and I are then read off that operation. -/

namespace Sys2Proof.Machine

/-! ### The words of instructions (R71, R77) -/

theorem encodes_wordX_F {i : Instr} {op : Word} {x : Reg} {nn : Byte}
    (he : encode i = packXNN 0xF x nn) (hop : op = 0xF000 ||| nn.setWidth 16) :
    Encodes (wordX op x) i :=
  encodes_of_encode (he.trans (wordX_eq_packXNN x nn hop).symm)

/-! ### The index register (R160 to R162, R166) -/

theorem word_add_byte_toNat (a : Word) (b : Byte) :
    (a + b.setWidth 16).toNat = (a.toNat + b.toNat) % 65536 := by
  rw [BitVec.toNat_add, BitVec.toNat_setWidth_of_le (by decide)]

theorem glyphAddr_toNat (p : Params) (b : Byte) :
    (glyphAddr p b).toNat = (p.fontBase.toNat + b.toNat * 5) % 65536 :=
  BitVec.toNat_ofNat ..

/-- I after a register transfer, under either value of LDST_I_INCREMENT. -/
theorem State.bumpIndex_i_toNat (s : State) (x : Reg) :
    (s.bumpIndex x).i.toNat
      = if s.cfg.ldstIncr then (s.i.toNat + x.val + 1) % 65536 else s.i.toNat := by
  rw [State.bumpIndex_i, apply_ite BitVec.toNat, BitVec.toNat_add, BitVec.toNat_ofNat, Nat.add_mod_mod,
    Nat.add_assoc]

/-- Settles O37. -/
theorem loadIndexSetsI : Obligations.LoadIndexSetsI := by
  unfold Obligations.LoadIndexSetsI
  intro s nnn
  exact ⟨encodes_wordNNN rfl rfl, _, rfl, zext16_toNat nnn, rfl⟩

/-- Settles O38. -/
theorem addToIndexWraps : Obligations.AddToIndexWraps := by
  unfold Obligations.AddToIndexWraps
  intro s x
  exact ⟨encodes_wordX_F rfl rfl, _, rfl, word_add_byte_toNat s.i (s.getV x), rfl⟩

/-- Settles O39. -/
theorem glyphAddressIsFontBasePlusFiveVx : Obligations.GlyphAddressIsFontBasePlusFiveVx := by
  unfold Obligations.GlyphAddressIsFontBasePlusFiveVx
  intro s x
  exact ⟨encodes_wordX_F rfl rfl, _, rfl, glyphAddr_toNat s.cfg (s.getV x), rfl⟩

/-! ### The access at I inside memory (R51, R59) -/

theorem checkRange_indexAddr_of_inside {s : State} {n : Nat} (h : s.i.toNat + n ≤ 0x1000) :
    checkRange s.indexAddr n = none :=
  (checkRange_eq_none_iff ..).2 (.inr h)

/-! ### Decimal digits (R163) -/

/-- Byte `k` of the stored ones (R58, R60). -/
theorem State.readByte_storeBytes_add {s : State} (hm : Memory.rising 0 s.mem = true) (a : Nat)
    {bs : List Byte} {k : Nat} (hk : k < bs.length) : (s.storeBytes a bs).readByte (a + k) = bs[k] := by
  rw [State.readByte_storeBytes hm, dif_pos (by omega)]
  simp only [Nat.add_sub_cancel_left]

/-- Each decimal digit of a byte fits in a byte. -/
theorem decimalDigits_toNat (b : Byte) :
    (decimalDigits b).map BitVec.toNat = [b.toNat / 100, b.toNat / 10 % 10, b.toNat % 10] := by
  have hb : b.toNat < 256 := b.isLt
  simp only [decimalDigits, List.map_cons, List.map_nil, BitVec.toNat_ofNat,
    Nat.mod_eq_of_lt (by omega : b.toNat / 100 < 2 ^ 8),
    Nat.mod_eq_of_lt (by omega : b.toNat / 10 % 10 < 2 ^ 8),
    Nat.mod_eq_of_lt (by omega : b.toNat % 10 < 2 ^ 8)]

/-- Digit `k` of a byte, hundreds first, stored from `a` on, reads as that digit (R163). -/
theorem State.readByte_storeBytes_decimalDigits {s : State} (hm : Memory.rising 0 s.mem = true)
    (a : Nat) (b : Byte) {k : Nat} (hk : k < 3) :
    ((s.storeBytes a (decimalDigits b)).readByte (a + k)).toNat
      = [b.toNat / 100, b.toNat / 10 % 10, b.toNat % 10][k] :=
  calc ((s.storeBytes a (decimalDigits b)).readByte (a + k)).toNat
      = ((decimalDigits b)[k]'hk).toNat := congrArg _ (State.readByte_storeBytes_add hm a hk)
    _ = ((decimalDigits b).map BitVec.toNat)[k]'hk := (List.getElem_map ..).symm
    _ = [b.toNat / 100, b.toNat / 10 % 10, b.toNat % 10][k] :=
      List.getElem_of_eq (decimalDigits_toNat b) _

/-- `Fx33` inside memory. -/
theorem exec_bcd_of_inside {s : State} {x : Reg} (h : s.i.toNat + 2 ≤ 0xFFF) :
    exec (.bcd x) s = .next (s.storeBytes s.indexAddr (decimalDigits (s.getV x))).advance := by
  simp only [exec, execBcd, checkRange_indexAddr_of_inside (show s.i.toNat + 3 ≤ 0x1000 by omega)]

/-- Settles O40: the three digits are the bytes of one store. -/
theorem bcdStoresThreeDigits : Obligations.BcdStoresThreeDigits := by
  unfold Obligations.BcdStoresThreeDigits
  intro s x hm
  have hrise := Memory.wf_rising hm
  have hdigit {k : Nat} (hk : k < 3) :=
    State.readByte_storeBytes_decimalDigits hrise s.indexAddr (s.getV x) hk
  refine ⟨encodes_wordX_F rfl rfl, fun h => ⟨_, exec_bcd_of_inside h, hdigit (k := 0) (by decide),
    hdigit (k := 1) (by decide), hdigit (k := 2) (by decide), fun a ha => ?kept, ?frame⟩⟩
  case kept =>
    have hout : ¬ (s.indexAddr ≤ a ∧ a < s.indexAddr + 3) := by omega
    exact State.readByte_storeBytes_of_outside hrise hout
  case frame =>
    rw [State.storeBytes_eq]
    rfl

/-! ### Register transfers (R164 to R166) -/

/-- Settles O41: the increment of I and the advance of PC leave the stored bytes alone. -/
theorem storeWritesTheRegisters : Obligations.StoreWritesTheRegisters := by
  unfold Obligations.StoreWritesTheRegisters
  intro s x hm
  have hrise := Memory.wf_rising hm
  refine ⟨encodes_wordX_F rfl rfl, fun h => ⟨_, exec_store_of_inside h, fun k hk => ?stored,
    fun a ha => ?kept, ?index, ?frame⟩⟩
  case stored =>
    rw [State.readByte_advance, State.readByte_bumpIndex,
      State.readByte_storeBytes_regsUpTo hrise _ hk]
  case kept =>
    have hout : ¬ (s.indexAddr ≤ a ∧ a < s.indexAddr + (s.regsUpTo x).length) := by
      rw [State.regsUpTo_length]
      omega
    rw [State.readByte_advance, State.readByte_bumpIndex,
      State.readByte_storeBytes_of_outside hrise hout]
  case index =>
    rw [State.advance_i, State.bumpIndex_i_toNat, State.storeBytes_i, State.storeBytes_cfg]
  case frame =>
    rw [State.bumpIndex_eq, State.storeBytes_eq]
    rfl

/-- `Fx65` inside memory. -/
theorem exec_load_of_inside {s : State} {x : Reg} (h : s.i.toNat + x.val ≤ 0xFFF) :
    exec (.load x) s = .next ((s.loadRegs s.indexAddr (x.val + 1)).bumpIndex x).advance := by
  simp only [exec, execLoad,
    checkRange_indexAddr_of_inside (show s.i.toNat + (x.val + 1) ≤ 0x1000 by omega)]

/-- Settles O42: the loaded registers are those below `x + 1`. -/
theorem loadReadsTheRegisters : Obligations.LoadReadsTheRegisters := by
  unfold Obligations.LoadReadsTheRegisters
  intro s x
  refine ⟨encodes_wordX_F rfl rfl, fun h => ⟨_, exec_load_of_inside h, fun k => ?loaded, ?index,
    ?frame⟩⟩
  case loaded =>
    rw [State.getV_advance, State.getV_bumpIndex, s.getV_loadRegs _ _ x.isLt]
    simp only [Nat.lt_succ_iff, Fin.le_def]
  case index =>
    rw [State.advance_i, State.bumpIndex_i_toNat, State.loadRegs_i, State.loadRegs_cfg]
  case frame =>
    rw [State.bumpIndex_eq, State.loadRegs_eq]
    rfl

end Sys2Proof.Machine
end

section
/-! PROOFS. The timers and the key wait (O44 to O46): `Fx0A` is said once per branch (a held key, no key
held, no such instruction), in the words of the statement. -/

namespace Sys2Proof.Machine

/-! ### The timers (R180, R182, R183) -/

/-- Settles O44. -/
theorem readDelayTimer : Obligations.ReadDelayTimer := by
  unfold Obligations.ReadDelayTimer
  intro s x
  exact ⟨encodes_wordX_F rfl rfl, _, rfl, setsReg_setV s x s.dt, rfl⟩

/-- Settles O45. -/
theorem setTimers : Obligations.SetTimers := by
  unfold Obligations.SetTimers
  intro s x
  exact ⟨encodes_wordX_F rfl rfl, encodes_wordX_F rfl rfl, rfl, rfl⟩

/-! ### The key wait (R181, R78) -/

/-- `Fx0A` in wait mode, with `k` the lowest-numbered held key. -/
theorem exec_ldVK_of_lowest {s : State} (x : Reg) {k : Reg} (hm : s.cfg.fx0aMode = .wait)
    (hk : s.keyHeld k = true) (hl : ∀ j, j < k → s.keyHeld j = false) :
    exec (.ldVK x) s = .next (s.setV x (BitVec.ofNat 8 k.val)).advance := by
  simp only [exec, execLdVK, hm, State.lowestKey_some hk hl]

/-- `Fx0A` in wait mode, with no key held. -/
theorem exec_ldVK_of_noKey {s : State} (x : Reg) (hm : s.cfg.fx0aMode = .wait)
    (hn : ∀ j, s.keyHeld j = false) : exec (.ldVK x) s = .next s := by
  simp only [exec, execLdVK, hm, State.lowestKey_none hn]

/-- `Fx0A` in fault mode, on a running core (log 11). -/
theorem exec_ldVK_of_faultMode {s : State} (x : Reg) (hm : s.cfg.fx0aMode = .fault)
    (hf : s.fault = none) : exec (.ldVK x) s
      = .next { s with fault := some ⟨.invalidInstruction, encode (.ldVK x), s.pc, 0⟩ } := by
  simp only [exec, execLdVK, hm, State.raise_eq hf, BitVec.ofNat_eq_ofNat]

/-- Settles O46: the latched word is the instruction's own. -/
theorem keyWaitTakesTheLowestHeldKey : Obligations.KeyWaitTakesTheLowestHeldKey := by
  unfold Obligations.KeyWaitTakesTheLowestHeldKey
  intro s x
  have hword : encode (.ldVK x) = wordX 0xF00A x := (wordX_eq_packXNN x 0x0A rfl).symm
  refine ⟨encodes_of_encode hword, fun k hm hk hl => ?held, exec_ldVK_of_noKey x, fun hm hf => ?fault⟩
  case held => exact ⟨_, exec_ldVK_of_lowest x hm hk hl, setsReg_setV s x _, rfl⟩
  case fault => rw [← hword, exec_ldVK_of_faultMode x hm hf]

end Sys2Proof.Machine
end

section
/-! PROOFS. Exceptions and the host's ports (O10 to O12, O47, O53, O54): an instruction executed in a
running core is said once for the states in which `faultCause` names a fault and once for the others;
what the ports do and show is read off one strobe, one field or one bit at a time. -/

namespace Sys2Proof.Machine

/-! ### Faults of instructions (R200, R203, R204) -/

/-- The record that instruction `i` latches in `s` when it raises a fault of kind `k` (R204). -/
def State.faultRecord (s : State) (i : Instr) (k : FaultKind) : FaultRecord where
  kind := k
  word := encode i
  pc := s.pc
  addr := if k = .memoryFault then BitVec.ofNat 16 (max s.i.toNat 0x1000) else 0

/-- The address of a record: I is 16 bits wide, so the cut to 16 bits loses nothing (log 35). -/
theorem State.faultRecord_addr (s : State) (i : Instr) (k : FaultKind) :
    if k = .memoryFault then (s.faultRecord i k).addr.toNat = max s.i.toNat 0x1000
    else (s.faultRecord i k).addr = 0 := by
  have hi := s.i.isLt
  unfold State.faultRecord
  split
  · exact (BitVec.toNat_ofNat ..).trans (Nat.mod_eq_of_lt (by omega))
  · rfl

/-- In a running core an instruction with a cause for a fault latches its record, and that is all. -/
theorem exec_of_faultCause {i : Instr} {s : State} {k : FaultKind} (hf : s.fault = none)
    (hk : faultCause i s = some k) :
    exec i s = .next { s with fault := some (s.faultRecord i k) } := by
  cases i with
  | cls | jp _ | seImm _ _ | sneImm _ _ | seReg _ _ | ldImm _ _ | addImm _ _ | ldReg _ _ | or _ _
  | and _ _ | xor _ _ | addReg _ _ | sub _ _ | shr _ _ | subn _ _ | shl _ _ | sneReg _ _ | ldI _
  | rnd _ _ | ldVDt _ | ldDtV _ | ldStV _ | addI _ | ldF _ => cases hk
  | ret =>
    obtain ⟨h, rfl⟩ := Option.ite_some_none_eq_some.1 hk
    exact exec_ret_of_empty h hf
  | call nnn =>
    obtain ⟨h, rfl⟩ := Option.ite_some_none_eq_some.1 hk
    exact exec_call_of_full nnn h hf
  | skp x | sknp x =>
    obtain ⟨h, rfl⟩ := Option.ite_some_none_eq_some.1 hk
    have hid : keyId (s.getV x) = none := keyId_of_not_lt (by omega)
    simp only [exec, execSkp, execSknp, hid]
    exact congrArg _ (State.raise_eq hf ..)
  | drw x y n =>
    obtain ⟨⟨hn, h⟩, rfl⟩ := Option.ite_some_none_eq_some.1 hk
    exact latches_of_access_outside hf hn (by omega)
  | bcd x =>
    obtain ⟨h, rfl⟩ := Option.ite_some_none_eq_some.1 hk
    exact latches_of_access_outside hf (by decide) (by omega)
  | store x | load x =>
    obtain ⟨h, rfl⟩ := Option.ite_some_none_eq_some.1 hk
    exact latches_of_access_outside hf x.val.succ_pos (by omega)
  | ldVK x =>
    obtain ⟨h, rfl⟩ := Option.ite_some_none_eq_some.1 hk
    exact exec_ldVK_of_faultMode x h hf

/-- An instruction without a cause for a fault answers a next state and leaves the latch alone. -/
theorem exec_of_no_faultCause {i : Instr} {s : State} (hk : faultCause i s = none) :
    ∃ t, exec i s = .next t ∧ t.fault = s.fault := by
  cases i with
  | cls | jp _ | ldImm _ _ | addImm _ _ | ldReg _ _ | or _ _ | and _ _ | xor _ _ | addReg _ _ | ldI _
  | rnd _ _ | ldVDt _ | ldDtV _ | ldStV _ | addI _ | ldF _ => exact ⟨_, rfl, rfl⟩
  | seImm _ _ | sneImm _ _ | seReg _ _ | sneReg _ _ => exact ⟨_, rfl, s.skipIf_fault _⟩
  | sub x _ | shr x _ | subn x _ | shl x _ => exact ⟨_, rfl, s.writeFlagged_fault x _ _⟩
  | ret =>
    have h : s.sp ≠ 0 := (Option.some_ne_none _).ite_eq_right_iff.1 hk
    exact ⟨_, exec_ret_of_pos (Fin.pos_iff_ne_zero.2 h), rfl⟩
  | call nnn =>
    have h : s.sp ≠ 16 := (Option.some_ne_none _).ite_eq_right_iff.1 hk
    exact ⟨_, exec_call_of_lt nnn (by omega), rfl⟩
  | skp x | sknp x =>
    have h : ¬ 15 < (s.getV x).toNat := (Option.some_ne_none _).ite_eq_right_iff.1 hk
    simp only [exec, execSkp, execSknp, keyId_of_lt (Nat.lt_succ_of_le (Nat.le_of_not_lt h))]
    exact ⟨_, rfl, s.skipIf_fault _⟩
  | drw x y n =>
    have h : ¬ (0 < n.toNat ∧ 0xFFF < s.i.toNat + n.toNat - 1) :=
      (Option.some_ne_none _).ite_eq_right_iff.1 hk
    obtain ⟨fb, hit, hexec, -, -⟩ := exec_drw_of_fits (s := s) x y (n := n) (by omega)
    exact ⟨_, hexec, rfl⟩
  | bcd x =>
    have h : ¬ 0xFFF < s.i.toNat + 2 := (Option.some_ne_none _).ite_eq_right_iff.1 hk
    exact ⟨_, exec_bcd_of_inside (Nat.le_of_not_lt h), State.storeBytes_fault ..⟩
  | store x =>
    have h : ¬ 0xFFF < s.i.toNat + x.val := (Option.some_ne_none _).ite_eq_right_iff.1 hk
    exact ⟨_, exec_store_of_inside (Nat.le_of_not_lt h),
      (State.bumpIndex_fault _ x).trans (State.storeBytes_fault ..)⟩
  | load x =>
    have h : ¬ 0xFFF < s.i.toNat + x.val := (Option.some_ne_none _).ite_eq_right_iff.1 hk
    exact ⟨_, exec_load_of_inside (Nat.le_of_not_lt h),
      (State.bumpIndex_fault _ x).trans (State.loadRegs_fault ..)⟩
  | ldVK x =>
    have h : s.cfg.fx0aMode ≠ .fault := (Option.some_ne_none _).ite_eq_right_iff.1 hk
    cases hm : s.cfg.fx0aMode with
    | fault => exact absurd hm h
    | wait =>
      simp only [exec, execLdVK, hm]
      cases s.lowestKey with
      | some key => exact ⟨_, rfl, rfl⟩
      | none => exact ⟨_, rfl, rfl⟩

/-- Settles O11: with a cause the record of its kind is latched, without one the latch stays empty. -/
theorem faultsExactlyWhenTheRulesSay : Obligations.FaultsExactlyWhenTheRulesSay := by
  unfold Obligations.FaultsExactlyWhenTheRulesSay
  intro i s hf
  cases hk : faultCause i s with
  | some k => exact ⟨_, exec_of_faultCause hf hk, rfl⟩
  | none =>
    obtain ⟨t, ht, htf⟩ := exec_of_no_faultCause hk
    exact ⟨t, ht, by rw [htf, hf]; rfl⟩

/-- Settles O12: an instruction that latches a record has a cause for it, so it does nothing else. -/
theorem instructionFaultsArePrecise : Obligations.InstructionFaultsArePrecise := by
  unfold Obligations.InstructionFaultsArePrecise
  intro i s t r hf h hr
  cases hk : faultCause i s with
  | some k =>
    rw [exec_of_faultCause hf hk] at h
    cases h
    cases hr
    exact ⟨rfl, rfl, rfl, s.faultRecord_addr i k⟩
  | none =>
    obtain ⟨u, hu, huf⟩ := exec_of_no_faultCause hk
    cases hu.symm.trans h
    cases hr.symm.trans (huf.trans hf)

/-! ### The halted core and the tick (R205, R220, R221, R250) -/

theorem stepCall_halted {s : State} {r : FaultRecord} (h : s.fault = some r) (n : Nat) :
    stepCall n s = .faulted r s := by
  simp only [stepCall, h]

/-- Settles O10: EXEC, TICK and a step call each look at the latch first. -/
theorem haltedCoreChangesNothing : Obligations.HaltedCoreChangesNothing := by
  unfold Obligations.HaltedCoreChangesNothing
  intro s r h
  exact ⟨execStrobe_halted h, tick_halted h, stepCall_halted h⟩

/-- Settles O47: the tick of a running core writes three fields, that of a halted core none. -/
theorem tickCountsDown : Obligations.TickCountsDown := by
  unfold Obligations.TickCountsDown
  intro s
  refine ⟨fun hf => ?running, fun hf => ?halted⟩
  case running =>
    rw [tick_running hf]
    exact ⟨countDown_toNat s.dt, countDown_toNat s.st, beq_iff_eq, rfl⟩
  case halted =>
    obtain ⟨r, hr⟩ := Option.ne_none_iff_exists'.1 hf
    exact tick_halted hr

/-! ### The host's exchanges (R232, R233) -/

/-- The keys after key `id` is pressed (`b` is true) or released. -/
theorem State.keyHeld_set (s : State) (id k : Reg) (b : Bool) :
    ({ s with keys := s.keys.set id.val b } : State).keyHeld k
      = if k = id then b else s.keyHeld k := by
  simp only [State.keyHeld, Vector.getElem_set, Fin.ext_iff, eq_comm]

/-- Settles O53: the step takes the pending strobe, which writes one key or REDRAW. -/
theorem hostEventsChangeOneBit : Obligations.HostEventsChangeOneBit := by
  unfold Obligations.HostEventsChangeOneBit
  intro s id rest
  exact ⟨fun h => ⟨_, step_strobe h, fun k => State.keyHeld_set _ id k true, rfl⟩,
    fun h => ⟨_, step_strobe h, fun k => State.keyHeld_set _ id k false, rfl⟩, step_strobe⟩

/-! ### The output ports (R201, R230, R234) -/

theorem frameBufferPort_length (s : State) : (frameBufferPort s).length = 2048 := by
  rw [frameBufferPort, List.length_map, List.length_range]

/-- Bit `k` of the frame-buffer port (D23; log 25). -/
theorem frameBufferPort_getElem? (s : State) {k : Nat} (h : k < 2048) :
    (frameBufferPort s)[k]? = some (s.fb.cell (k % 64) (k / 64)) := by
  rw [frameBufferPort, List.getElem?_map, List.getElem?_range h, Option.map_some]

theorem memorySnapshot_getElem? (s : State) {a : Nat} (h : a < 4096) :
    (memorySnapshot s)[a]? = some (s.readByte a) := by
  have hlen : a < (s.loadBytes 0 4096).length := by rwa [State.loadBytes_length]
  rw [memorySnapshot, List.getElem?_eq_getElem hlen, State.loadBytes_getElem, Nat.zero_add]

theorem faultCode_of_none {s : State} (h : s.fault = none) : faultCode s = 0 := by
  simp only [faultCode, h]

theorem faultCode_of_some {s : State} {r : FaultRecord} (h : s.fault = some r) :
    faultCode s = r.kind.code := by
  simp only [faultCode, h]

/-- The codes that R201 lists. -/
theorem FaultKind.mem_codes (k : FaultKind) : (k, k.code) ∈ [(FaultKind.invalidInstruction, 1),
    (.stackOverflow, 2), (.stackUnderflow, 3), (.memoryFault, 4), (.keyIndexFault, 5)] := by
  cases k <;> decide

/-- Settles O54: bit `y * 64 + x` of the port lies in row `y`, column `x`. -/
theorem outputPortsShowTheState : Obligations.OutputPortsShowTheState := by
  unfold Obligations.OutputPortsShowTheState
  intro s
  refine ⟨frameBufferPort_length s, fun x y hx hy => ?cell, s.loadBytes_length 0 4096,
    fun a => memorySnapshot_getElem? s, faultCode_of_none, fun r hr => ?code⟩
  case cell =>
    have hcol : (y * 64 + x) % 64 = x := by omega
    have hrow : (y * 64 + x) / 64 = y := by omega
    rw [frameBufferPort_getElem? s (by omega), hcol, hrow]
  case code =>
    rw [faultCode_of_some hr]
    exact r.kind.mem_codes

end Sys2Proof.Machine
end

section
/-! PROOFS. Reset, load and the step call (O48 to O52, O55 to O57, O59): the pending strobes are no state of
the core, so EXEC and TICK do the same under any list of them; a step call is peeled one EXEC at a time;
the batch size is bounded from its quotient; the reset state is read off field by field. -/

namespace Sys2Proof.Machine

/-! ### The pending strobes are no state of the core (log 2) -/

/-- `s` with other strobes of the host pending. -/
def State.withStrobes (s : State) (l : List Strobe) : State := { s with strobes := l }

/-- An outcome with other strobes pending in its next state, if it has one. -/
def outcomeWithStrobes (l : List Strobe) : Result → Result
  | .next t => .next (t.withStrobes l)
  | .fault r => .fault r
  | .refused r => .refused r

section
variable (s : State) (l : List Strobe)

@[simp] theorem State.withStrobes_cfg : (s.withStrobes l).cfg = s.cfg := rfl
@[simp] theorem State.withStrobes_pc : (s.withStrobes l).pc = s.pc := rfl
@[simp] theorem State.withStrobes_fault : (s.withStrobes l).fault = s.fault := rfl
@[simp] theorem State.withStrobes_getV (x : Reg) : (s.withStrobes l).getV x = s.getV x := rfl
@[simp] theorem State.withStrobes_indexAddr : (s.withStrobes l).indexAddr = s.indexAddr := rfl
@[simp] theorem State.withStrobes_lowestKey : (s.withStrobes l).lowestKey = s.lowestKey := rfl
@[simp] theorem State.withStrobes_regsUpTo (x : Reg) :
    (s.withStrobes l).regsUpTo x = s.regsUpTo x := rfl
@[simp] theorem State.withStrobes_fetch : (s.withStrobes l).fetch = s.fetch := rfl

theorem State.push_withStrobes (a : Word) :
    (s.withStrobes l).push a = (s.push a).map (·.withStrobes l) := by
  by_cases h : s.sp.val < 16 <;> simp [State.push, State.withStrobes, h]

theorem State.pop_withStrobes :
    (s.withStrobes l).pop = s.pop.map fun p => (p.1, p.2.withStrobes l) := by
  by_cases h : 0 < s.sp.val <;> simp [State.pop, State.withStrobes, h]

theorem State.skipIf_withStrobes (c : Bool) :
    (s.withStrobes l).skipIf c = (s.skipIf c).withStrobes l := by
  cases c <;> rfl

theorem State.bumpIndex_withStrobes (x : Reg) :
    (s.withStrobes l).bumpIndex x = (s.bumpIndex x).withStrobes l := by
  cases h : s.cfg.ldstIncr <;> simp [State.bumpIndex, State.withStrobes, h]

theorem State.writeFlagged_withStrobes (x : Reg) (f : Byte) {g : State → Byte}
    (hg : ∀ u : State, g (u.withStrobes l) = g u) :
    (s.withStrobes l).writeFlagged x f g = (s.writeFlagged x f g).withStrobes l := by
  simp only [State.writeFlagged, State.withStrobes_cfg, hg]
  cases s.cfg.vfOrder with
  | docSequential => exact congrArg (((s.withStrobes l).setV vf f).setV x) (hg (s.setV vf f))
  | latchedFlagLast => rfl

theorem State.storeBytes_withStrobes (a : Nat) (bs : List Byte) :
    (s.withStrobes l).storeBytes a bs = (s.storeBytes a bs).withStrobes l := by
  induction bs generalizing s a with
  | nil => rfl
  | cons b bs ih => exact ih (s.writeByte a b) (a + 1)

theorem State.loadRegs_withStrobes (a n : Nat) :
    (s.withStrobes l).loadRegs a n = (s.loadRegs a n).withStrobes l := by
  induction n with
  | zero => rfl
  | succ k ih =>
    simp only [State.loadRegs, ih]
    split <;> rfl

/-- The meaning of an instruction neither reads nor writes the pending strobes. -/
theorem exec_withStrobes (i : Instr) :
    exec i (s.withStrobes l) = outcomeWithStrobes l (exec i s) := by
  cases i with
  | cls | jp _ | ldImm _ _ | addImm _ _ | ldReg _ _ | or _ _ | and _ _ | xor _ _ | addReg _ _ | ldI _
  | rnd _ _ | ldVDt _ | ldDtV _ | ldStV _ | addI _ | ldF _ => rfl
  | seImm _ _ | sneImm _ _ | seReg _ _ | sneReg _ _ => exact congrArg _ (s.skipIf_withStrobes l _)
  | sub x y | shr x y | subn x y | shl x y =>
    exact congrArg (Host.Outcome.next <| State.advance ·)
      (s.writeFlagged_withStrobes l x _ fun _ => rfl)
  | ret =>
    simp only [exec, execRet, State.pop_withStrobes]
    cases s.pop <;> rfl
  | call nnn =>
    simp only [exec, execCall, State.push_withStrobes, State.withStrobes_pc]
    cases s.push (s.pc + 2) <;> rfl
  | skp x | sknp x =>
    simp only [exec, execSkp, execSknp, State.withStrobes_getV, State.skipIf_withStrobes]
    cases keyId (s.getV x) <;> rfl
  | drw x y n =>
    simp only [exec, execDrw, State.withStrobes_indexAddr]
    cases checkRange s.indexAddr n.toNat <;> rfl
  | bcd x =>
    simp only [exec, execBcd, State.withStrobes_indexAddr, State.withStrobes_getV,
      State.storeBytes_withStrobes]
    cases checkRange s.indexAddr 3 <;> rfl
  | store x =>
    simp only [exec, execStore, State.withStrobes_indexAddr, State.withStrobes_regsUpTo,
      State.storeBytes_withStrobes, State.bumpIndex_withStrobes]
    cases checkRange s.indexAddr (x.val + 1) <;> rfl
  | load x =>
    simp only [exec, execLoad, State.withStrobes_indexAddr, State.loadRegs_withStrobes,
      State.bumpIndex_withStrobes]
    cases checkRange s.indexAddr (x.val + 1) <;> rfl
  | ldVK x =>
    simp only [exec, execLdVK, State.withStrobes_cfg, State.withStrobes_lowestKey]
    cases s.cfg.fx0aMode with
    | fault => rfl
    | wait => cases s.lowestKey <;> rfl

/-- Nor does an EXEC. -/
theorem execStrobe_withStrobes :
    execStrobe (s.withStrobes l) = outcomeWithStrobes l (execStrobe s) := by
  simp only [execStrobe, State.withStrobes_fault, State.withStrobes_fetch, State.withStrobes_cfg,
    exec_withStrobes]
  cases s.fault with
  | some r => rfl
  | none =>
    cases s.fetch with
    | error a => rfl
    | ok w =>
      dsimp only
      cases decode s.cfg.fx0aMode w <;> rfl

/-- Nor does a TICK. -/
theorem tick_withStrobes : tick (s.withStrobes l) = (tick s).withStrobes l := by
  simp only [tick, State.withStrobes_fault]
  cases s.fault <;> rfl

end

/-! ### The step call, one EXEC at a time (R250) -/

/-- An EXEC of a running core answers a next state. -/
theorem execStrobe_next {s : State} (hf : s.fault = none) : ∃ t, execStrobe s = .next t := by
  by_cases hp : s.pc.toNat ≤ 0xFFE
  · cases hd : decode s.cfg.fx0aMode s.fetchedWord with
    | error e => exact ⟨_, execStrobe_invalid hf hp hd⟩
    | ok i =>
      obtain ⟨t, ht, -⟩ := faultsExactlyWhenTheRulesSay i s hf
      exact ⟨t, (execStrobe_exec hf hp hd).trans ht⟩
  · exact ⟨_, execStrobe_fetch_fault hf (Nat.lt_of_not_le hp)⟩

theorem stepCall_zero {s : State} (hf : s.fault = none) : stepCall 0 s = .ok (tick s) := by
  simp only [stepCall, hf, batch]

/-- A step call of a running core goes on from the state that its first EXEC answers. -/
theorem stepCall_succ {n : Nat} {s t : State} (hf : s.fault = none) (h : execStrobe s = .next t) :
    stepCall (n + 1) s = stepCall n t := by
  cases ht : t.fault <;> simp only [stepCall, hf, batch, h, ht]

theorem execRun_succ {n : Nat} {s t : State} (h : execStrobe s = .next t) :
    execRun (n + 1) s = execRun n t := by
  simp only [execRun, h]

/-- The step that takes a pending EXEC, as an EXEC without it. -/
theorem step_withStrobes_exec {s t : State} (l : List Strobe) (h : execStrobe s = .next t) :
    step (s.withStrobes (.exec :: l)) = .next (t.withStrobes l) := by
  calc step (s.withStrobes (.exec :: l))
    _ = execStrobe (s.withStrobes l) := step_strobe (s := s.withStrobes (.exec :: l)) rfl
    _ = outcomeWithStrobes l (execStrobe s) := execStrobe_withStrobes s l
    _ = .next (t.withStrobes l) := by rw [h]; rfl

/-- The step that takes a pending TICK, as a TICK without it. -/
theorem step_withStrobes_tick (s : State) (l : List Strobe) :
    step (s.withStrobes (.tick :: l)) = .next ((tick s).withStrobes l) :=
  (step_strobe rfl).trans (congrArg _ (tick_withStrobes s l))

/-- A step call that returns Ok is the run of its strobes: the EXECs one by one, then the TICK. -/
theorem run_of_stepCall_ok (n : Nat) (s : State) {u : State} (rest : List Strobe)
    (h : stepCall n s = .ok u) :
    Sys2Proof.core.run (n + 1) (s.withStrobes (stepCallStrobes n ++ rest))
      = .next (u.withStrobes rest) := by
  cases hf : s.fault with
  | some r => cases (stepCall_halted hf n).symm.trans h
  | none =>
    cases n with
    | zero =>
      cases (stepCall_zero hf).symm.trans h
      exact core_run_next (step_withStrobes_tick s rest)
    | succ n =>
      obtain ⟨t, ht⟩ := execStrobe_next hf
      rw [stepCall_succ hf ht] at h
      exact (core_run_next (step_withStrobes_exec _ ht)).trans (run_of_stepCall_ok n t rest h)

/-- Settles O48. -/
theorem stepCallIsItsStrobes : Obligations.StepCallIsItsStrobes := by
  unfold Obligations.StepCallIsItsStrobes
  exact fun n s u rest h => run_of_stepCall_ok n s rest h

/-- A step call that returns a fault stops where the fault was latched: at once in a halted core, else after
an EXEC. -/
theorem execRun_of_stepCall_faulted (n : Nat) (s : State) {t : State} {r : FaultRecord}
    (h : stepCall n s = .faulted r t) :
    t.fault = some r ∧ ∃ m, m ≤ n ∧ execRun m s = .next t := by
  cases hf : s.fault with
  | some r' =>
    cases (stepCall_halted hf n).symm.trans h
    exact ⟨hf, 0, n.zero_le, rfl⟩
  | none =>
    cases n with
    | zero => cases (stepCall_zero hf).symm.trans h
    | succ n =>
      obtain ⟨u, hu⟩ := execStrobe_next hf
      rw [stepCall_succ hf hu] at h
      obtain ⟨hr, m, hm, hrun⟩ := execRun_of_stepCall_faulted n u h
      exact ⟨hr, m + 1, Nat.succ_le_succ hm, (execRun_succ hu).trans hrun⟩

/-- Settles O49. -/
theorem faultEndsTheStepCall : Obligations.FaultEndsTheStepCall := by
  unfold Obligations.FaultEndsTheStepCall
  exact fun n s t r h => execRun_of_stepCall_faulted n s h

/-! ### The batch size (R251) -/

/-- `(2a + d) / 2d` is a whole number nearest to `a / d`. -/
theorem near_of_halfUp (a : Nat) {d : Nat} (hd : 0 < d) :
    2 * a ≤ 2 * ((2 * a + d) / (2 * d)) * d + d ∧ 2 * ((2 * a + d) / (2 * d)) * d ≤ 2 * a + d := by
  have hlow := Nat.div_mul_le_self (2 * a + d) (2 * d)
  have hhigh := Nat.lt_div_mul_add (a := 2 * a + d) (b := 2 * d) (by omega)
  have hassoc : (2 * a + d) / (2 * d) * (2 * d) = 2 * ((2 * a + d) / (2 * d)) * d := by ring
  omega

/-- A quotient whose fraction is one half. -/
theorem two_mul_eq_of_half {a d : Nat} (h : 2 * (a % d) = d) : 2 * a = 2 * (a / d) * d + d := by
  have hdiv := Nat.div_add_mod a d
  have hassoc : 2 * (a / d) * d = 2 * (d * (a / d)) := by ring
  omega

theorem halfUp_of_half {a d : Nat} (hd : 0 < d) (h : 2 * (a % d) = d) :
    (2 * a + d) / (2 * d) = a / d + 1 := by
  refine Nat.div_eq_of_eq_mul_left (by omega) ?_
  rw [two_mul_eq_of_half h]
  ring

theorem roundQuotient_halfEven_of_half {a d : Nat} (h : 2 * (a % d) = d) :
    roundQuotient .halfEven a d = a / d + a / d % 2 := by
  rw [roundQuotient, if_pos h]

/-- ROUND gives a whole number nearest to the quotient. -/
theorem roundQuotient_near (r : Rounding) (a : Nat) {d : Nat} (hd : 0 < d) :
    2 * a ≤ 2 * roundQuotient r a d * d + d ∧ 2 * roundQuotient r a d * d ≤ 2 * a + d := by
  cases r with
  | halfAwayFromZero => exact near_of_halfUp a hd
  | halfEven =>
    by_cases h : 2 * (a % d) = d
    · rw [roundQuotient_halfEven_of_half h, two_mul_eq_of_half h]
      obtain hmod | hmod := Nat.mod_two_eq_zero_or_one (a / d)
      · rw [hmod, Nat.add_zero]
        omega
      · have hmul : 2 * (a / d + 1) * d = 2 * (a / d) * d + 2 * d := by ring
        rw [hmod, hmul]
        omega
    · rw [roundQuotient, if_neg h]
      exact near_of_halfUp a hd

/-- Settles O50: the denominators are positive, and ROUND is of the exact quotient. -/
theorem batchSizeIsTheNearestNumber : Obligations.BatchSizeIsTheNearestNumber := by
  unfold Obligations.BatchSizeIsTheNearestNumber
  intro p num den hp hden a d n
  have hd : 0 < d := by
    simp only [Params.wellFormed, Bool.and_eq_true, decide_eq_true_eq] at hp
    exact Nat.mul_pos hden hp.2
  obtain ⟨hlow, hhigh⟩ := roundQuotient_near p.round a hd
  refine ⟨hlow, hhigh, fun h hr => ?away, fun h hr => ?even⟩
  case away => exact (congrArg (roundQuotient · a d) hr).trans (halfUp_of_half hd h)
  case even =>
    have hn : n = a / d + a / d % 2 :=
      (congrArg (roundQuotient · a d) hr).trans (roundQuotient_halfEven_of_half h)
    omega

/-! ### LOAD (R243) -/

theorem loadPort_outside {s : State} (image : List Byte) (h : s.loaded = true ∨ s.fault ≠ none) :
    loadPort image s = .outsideContract := by
  rw [loadPort, if_pos]
  rwa [Bool.or_eq_true, Option.isSome_iff_ne_none]

theorem loadPort_tooLarge {s : State} {image : List Byte} (hl : s.loaded = false)
    (hf : s.fault = none) (h : 3584 < image.length) : loadPort image s = .programTooLarge := by
  simp only [loadPort, hl, hf, Option.isSome_none, Bool.or_self, Bool.false_eq_true, if_false, if_pos h]

theorem loadPort_accepted {s : State} {image : List Byte} (hl : s.loaded = false)
    (hf : s.fault = none) (h : image.length ≤ 3584) :
    loadPort image s = .loadOk { s.storeBytes 0x200 image with loaded := true } := by
  simp only [loadPort, hl, hf, Option.isSome_none, Bool.or_self, Bool.false_eq_true, if_false,
    if_neg (Nat.not_lt_of_le h)]

/-- Settles O51: the load stores the image and sets Loaded, and a store writes memory alone. -/
theorem loadWritesTheImage : Obligations.LoadWritesTheImage := by
  unfold Obligations.LoadWritesTheImage
  intro s image hm hl hf himage
  refine ⟨_, loadPort_accepted hl hf himage, ?bytes, ?frame⟩
  case bytes => exact State.readByte_storeBytes (Memory.wf_rising hm) 0x200 image
  case frame => exact congrArg (fun u : State => { u with loaded := true }) (s.storeBytes_eq 0x200 image)

/-- Settles O52: the step asks the load port, on a state that differs in the pending strobes alone. -/
theorem loadRejectsAndRefuses : Obligations.LoadRejectsAndRefuses := by
  unfold Obligations.LoadRejectsAndRefuses
  intro s image rest hs
  rw [step_strobe hs]
  refine ⟨fun hl hf himage => ⟨loadPort_tooLarge hl hf himage, ?tooLarge⟩, fun h => ?outside⟩
  case tooLarge =>
    simp only [strobe, loadPort_tooLarge (s := { s with strobes := rest }) hl hf himage]
  case outside =>
    simp only [strobe, loadPort_outside (s := { s with strobes := rest }) image h]

/-! ### Reset (R240, R245) -/

/-- Memory of the reset state lists nothing, so every byte reads as its reset contents. -/
theorem State.readByte_resetWith (p : Params) (a : Nat) :
    (State.resetWith p).readByte a = resetByte p a := rfl

theorem resetByte_font (p : Params) {k : Nat} (h : k < 80) :
    resetByte p (p.fontBase.toNat + k) = p.fontGlyphs[k] := by
  simp [resetByte, h]

theorem resetByte_of_not_font {p : Params} {a : Nat}
    (h : a < p.fontBase.toNat ∨ p.fontBase.toNat + 80 ≤ a) : resetByte p a = 0x00 :=
  dif_neg (by omega)

/-- Settles O55: the registers, the stack and the keys are replicated zeros, memory is its reset contents,
the rest is written out. -/
theorem resetState : Obligations.ResetState := by
  unfold Obligations.ResetState
  intro p s
  exact ⟨fun k => Vector.getElem_replicate k.isLt, rfl, rfl, rfl, fun k h => Vector.getElem_replicate h,
    rfl, rfl, fun k => Vector.getElem_replicate k.isLt, fun x y _ _ => FrameBuffer.cell_clear x y,
    rfl, rfl, rfl, rfl, fun k h => resetByte_font p h, fun a h => resetByte_of_not_font h⟩

/-- Settles O56: the step takes the pending strobe. -/
theorem resetStrobeResets : Obligations.ResetStrobeResets := by
  unfold Obligations.ResetStrobeResets
  exact fun s rest h => step_strobe h

/-- Settles O57: the fetched word is 0x0000, whose EXEC latches it. -/
theorem unloadedCoreFaultsAtOnce : Obligations.UnloadedCoreFaultsAtOnce := by
  unfold Obligations.UnloadedCoreFaultsAtOnce
  intro p hp
  have hw : (State.resetWith p).fetchedWord = 0x0000 :=
    ((State.inv_resetWith hp).unloaded rfl).fetchedWord hp
  have hd : decode p.fx0aMode (State.resetWith p).fetchedWord = .error .machineCall0 := by
    rw [hw, decode_of_family0 rfl]
    rfl
  have hpc : (0x0200 : Word).toNat ≤ 0xFFE := by decide
  rw [step_free rfl, execStrobe_invalid rfl hpc hd, hw]
  rfl

/-- Settles O59. -/
theorem resetMeetsTheInvariant : Obligations.ResetMeetsTheInvariant := by
  unfold Obligations.ResetMeetsTheInvariant
  exact fun p hp => State.inv_resetWith hp

end Sys2Proof.Machine
end
